-- ==== Sys2Proof/Word.lean ====
section
/-! DEFINITION. The byte and the bus word of the EDES core (00_scope.md R9, R12; 20_memory.md R50). -/

namespace Sys2Proof

/-- A byte: an unsigned 8-bit value (R9). -/
abbrev Byte := BitVec 8

/-- A bus word: 32 bits, bit 0 least significant (R12, R50). -/
abbrev Word := BitVec 32

end Sys2Proof
end

