-- ==== Sys2Proof/Config.lean ====
section
/-! DEFINITION. What a build of the EDES core fixes: the algorithm constants (00_scope.md R6), the build parameters
(R8), and the values the spec leaves open, which nothing constrains. -/

namespace Sys2Proof.Config

/-- Bytes of one block (R6). -/
@[simp] abbrev blockBytes : Nat := 8

/-- Bytes of one Feistel half (R6). -/
@[simp] abbrev halfBytes : Nat := 4

/-- Entries of one S-box, each one byte (R6). -/
@[simp] abbrev sboxEntries : Nat := 256

/-- Rounds of one block, and the number of S-boxes (R6). -/
@[simp] abbrev rounds : Nat := 16

/-- Bytes of a key (R6). -/
@[simp] abbrev keyBytes : Nat := 32

/-- The modulus of the key-byte index of the S-box shuffle (R6, R104). -/
@[simp] abbrev keyIndexMod : Nat := 32

/-- BUF_BYTES of a reference build (R8). DESIGN CHOICE: a build may have another (log entry 3). -/
abbrev defaultBufBytes : Nat := 4096

/-- What R8 asks of BUF_BYTES: a multiple of 8, at least 16, at most `2^32 - 0x10000`. -/
def bufBytesLegal (n : Nat) : Bool := n % 8 == 0 && 16 ≤ n && n ≤ 2 ^ 32 - 0x10000

/-- The latencies of a build in clock cycles (R8, R240): named arguments that no step reads (log entry 13). -/
structure Latencies where
  mkctx : Nat
  block : Nat
  round : Nat
  padding : Nat
  cmd : Nat
  deriving DecidableEq, Repr

/-- Each latency is at least one clock cycle (R240). -/
def Latencies.legal (l : Latencies) : Bool :=
  1 ≤ l.mkctx && 1 ≤ l.block && 1 ≤ l.round && 1 ≤ l.padding && 1 ≤ l.cmd

/-! The free values. Each is applied to the counter `State.draws`; nothing constrains any of them (log entries 5, 8). -/

/-- The word a bus read draws where R44 and R243 say "any value". -/
opaque draw : Nat → Word

/-- GEN_I outside a command (R36, R45). -/
opaque freeGenI : Nat → BitVec 4

/-- GEN_J outside a command (R36, R45). -/
opaque freeGenJ : Nat → Byte

/-- GEN_I2 outside a command (R36, R45). -/
opaque freeGenI2 : Nat → Byte

/-- The generator's working table outside a command (R36, R45). -/
opaque freeGenTable : Nat → Vector Byte 256

/-- RND, the round counter, outside a command (R37, R45). -/
opaque freeRnd : Nat → BitVec 4

/-- BLK_IDX outside a command (R37, R45). -/
opaque freeBlkIdx : Nat → Word

end Sys2Proof.Config
end

