-- ==== Sys2Proof/Syntax.lean ====
section
/-! DEFINITION. The commands of the EDES core, one constructor per row of spec/opcode_table.json (30_encoding.md R71).
The only operand a command word carries is RND of ENCR and DECR (R75). -/

namespace Sys2Proof

/-- A legal command (R71). Every other command word is Illegal (R72, R76) and is no `Instr`. -/
inductive Instr where
  /-- 0x0 NOP: complete with status 0, no other effect (R180). -/
  | nop
  /-- 0x1 MKCTX: check the key length, generate the 16 S-boxes (R106 to R108). -/
  | mkctx
  /-- 0x2 PAD: pad the message in BUF (R122). -/
  | pad
  /-- 0x3 UNPAD: unpad the message in BUF (R124). -/
  | unpad
  /-- 0x4 ENCR r: one encryption round on BLOCK with `SBOX[r]` (R145). -/
  | encr (r : BitVec 4)
  /-- 0x5 DECR r: one decryption round on BLOCK with `SBOX[r]` (R146). -/
  | decr (r : BitVec 4)
  /-- 0x6 ENCB: the 16-round encryption of BLOCK (R162). -/
  | encb
  /-- 0x7 DECB: the 16-round decryption of BLOCK (R164). -/
  | decb
  /-- 0x8 ENC: pad and encrypt the message in BUF (R166). -/
  | enc
  /-- 0x9 DEC: decrypt and unpad the message in BUF (R168). -/
  | dec
  /-- 0xA CLRCTX: destroy the context and the key (R181). -/
  | clrctx
  deriving DecidableEq, Repr

end Sys2Proof
end

