-- ==== Sys2Proof/WellFormed.lean ====
section
/-! DEFINITION. What makes a command word well formed, as three checks on its fields (30_encoding.md R70, R76). An
`Instr` carries no field that could break one, so the checks are about the fields of a word. -/

namespace Sys2Proof

/-- The three fields of a command word (R70): OP in bits 3:0, RND in bits 7:4, RSVD in bits 31:8. -/
structure CmdFields where
  op : BitVec 4
  rnd : BitVec 4
  rsvd : BitVec 24
  deriving DecidableEq, Repr

/-- OP is one of 0x0 to 0xA; 0xB to 0xF are reserved (R71). -/
def CmdFields.opcodeDefined (f : CmdFields) : Bool := f.op.toNat ≤ 0xA

/-- RND is zero unless OP is ENCR or DECR (R70). -/
def CmdFields.roundAllowed (f : CmdFields) : Bool := f.op == 4 || f.op == 5 || f.rnd == 0

/-- RSVD is zero (R70). -/
def CmdFields.reservedZero (f : CmdFields) : Bool := f.rsvd == 0

/-- A legal command word's fields pass all three checks (R76). -/
def CmdFields.wellFormed (f : CmdFields) : Bool := f.opcodeDefined && f.roundAllowed && f.reservedZero

end Sys2Proof
end

