-- ==== Sys2Proof/Decode.lean ====
section
/-! DEFINITION. Decode of a command word, total and rejecting by name (30_encoding.md R72), and the encoder (R70, R71). -/

namespace Sys2Proof

/-- The fields of a word (R70). -/
def fieldsOf (w : Word) : CmdFields where
  op := w.extractLsb' 0 4
  rnd := w.extractLsb' 4 4
  rsvd := w.extractLsb' 8 24

/-- The word that carries the three fields (R70). -/
def wordOf (f : CmdFields) : Word := f.rsvd ++ f.rnd ++ f.op

/-- Why a word is Illegal (R76). The chip reports no reason, only code 6 (R202; log entry 15). -/
inductive DecodeError where
  /-- OP is 0xB to 0xF. -/
  | reservedOpcode
  /-- RND is not zero and OP is neither ENCR nor DECR. -/
  | nonzeroRound
  /-- RSVD is not zero. -/
  | nonzeroReserved
  deriving DecidableEq, Repr

/-- A command without an operand: RND and RSVD must be zero (R72). -/
def decodePlain (f : CmdFields) (i : Instr) : Except DecodeError Instr :=
  if f.rsvd ≠ 0 then .error .nonzeroReserved
  else if f.rnd ≠ 0 then .error .nonzeroRound
  else .ok i

/-- ENCR and DECR: RSVD must be zero, RND is the operand (R72, R75). -/
def decodeRound (f : CmdFields) (i : BitVec 4 → Instr) : Except DecodeError Instr :=
  if f.rsvd ≠ 0 then .error .nonzeroReserved else .ok (i f.rnd)

/-- `Decode` on the fields, opcode by opcode (R71, R72). -/
def decodeFields (f : CmdFields) : Except DecodeError Instr :=
  match f.op.toNat with
  | 0x0 => decodePlain f .nop
  | 0x1 => decodePlain f .mkctx
  | 0x2 => decodePlain f .pad
  | 0x3 => decodePlain f .unpad
  | 0x4 => decodeRound f .encr
  | 0x5 => decodeRound f .decr
  | 0x6 => decodePlain f .encb
  | 0x7 => decodePlain f .decb
  | 0x8 => decodePlain f .enc
  | 0x9 => decodePlain f .dec
  | 0xA => decodePlain f .clrctx
  | _ => .error .reservedOpcode

/-- `Decode(w)`, total on every 32-bit word (R72). -/
def decode (w : Word) : Except DecodeError Instr := decodeFields (fieldsOf w)

/-- OP of a command (R71). -/
def opcodeOf (i : Instr) : BitVec 4 :=
  match i with
  | .nop => 0x0
  | .mkctx => 0x1
  | .pad => 0x2
  | .unpad => 0x3
  | .encr _ => 0x4
  | .decr _ => 0x5
  | .encb => 0x6
  | .decb => 0x7
  | .enc => 0x8
  | .dec => 0x9
  | .clrctx => 0xA

/-- RND of a command: the round index of ENCR and DECR, zero for every other (R70, R75). -/
def roundOf (i : Instr) : BitVec 4 :=
  match i with
  | .encr r => r
  | .decr r => r
  | .nop | .mkctx | .pad | .unpad | .encb | .decb | .enc | .dec | .clrctx => 0

/-- The fields of a command's word (R70). -/
def instrFields (i : Instr) : CmdFields := ⟨opcodeOf i, roundOf i, 0⟩

/-- The command word of a command (R70, R71; R78's expansions write the same words). -/
def encode (i : Instr) : Word := wordOf (instrFields i)

/-- The word and the mask of a command's row in spec/opcode_table.json (R79): RND is free for ENCR and DECR. -/
def tableRow (i : Instr) : Word × Word :=
  match i with
  | .nop => (0x00000000, 0xFFFFFFFF)
  | .mkctx => (0x00000001, 0xFFFFFFFF)
  | .pad => (0x00000002, 0xFFFFFFFF)
  | .unpad => (0x00000003, 0xFFFFFFFF)
  | .encr _ => (0x00000004, 0xFFFFFF0F)
  | .decr _ => (0x00000005, 0xFFFFFF0F)
  | .encb => (0x00000006, 0xFFFFFFFF)
  | .decb => (0x00000007, 0xFFFFFFFF)
  | .enc => (0x00000008, 0xFFFFFFFF)
  | .dec => (0x00000009, 0xFFFFFFFF)
  | .clrctx => (0x0000000A, 0xFFFFFFFF)

/-- The command the decoder reads from an instruction whose `nbits` low bits are `w`'s, the others zero. A command is one
32-bit word (R70), so there are no later words to lay out. -/
def decodeTableWord (nbits w : Nat) : Option Instr :=
  match decode (BitVec.ofNat 32 (w % 2 ^ nbits)) with
  | .ok i => some i
  | .error _ => none

end Sys2Proof
end

