-- ==== Sys2Proof/Machine/State.lean ====
section
/-! DEFINITION. Everything the spec gives the EDES core to hold (10_state.md R20), as plain data, with the reasons a step
can stop and the state after reset (R45). -/

namespace Sys2Proof.Machine

/-- One Feistel half: four bytes, `h[0]` first (R60, R140). -/
structure Half where
  b0 : Byte
  b1 : Byte
  b2 : Byte
  b3 : Byte
  deriving DecidableEq, Repr

/-- One 8-byte block: the left half is bytes 0..3, the right half bytes 4..7 (R33, R60). -/
structure Block where
  left : Half
  right : Half
  deriving DecidableEq, Repr

/-- One S-box: 256 entries of one byte (R30). -/
abbrev SBox := Vector Byte Config.sboxEntries

/-- The 16 S-boxes, box `b` for round `b` (R30). -/
abbrev Boxes := Vector SBox Config.rounds

/-- A 32-byte key (R34, R35). -/
abbrev Key := Vector Byte Config.keyBytes

/-- The status codes a command can complete with (60_exceptions.md R200). -/
inductive StatusCode where
  /-- 0: the command completed as its rule says. -/
  | success
  /-- 1: MKCTX with KEY_LEN other than 32. -/
  | invalidKeyLength
  /-- 2: DEC with a length that is zero or no multiple of 8. -/
  | invalidCiphertextLength
  /-- 3: DEC or UNPAD whose final byte is 0 or exceeds the length; UNPAD of an empty message. -/
  | invalidPadding
  /-- 4: a cipher command without a context. -/
  | noContext
  /-- 5: the message, or its padded form, does not fit in BUF. -/
  | capacityExceeded
  /-- 6: a command word that `Decode` rejects. -/
  | illegalCommand
  deriving DecidableEq, Repr

/-- What the outside world can do to the block: a bus read or write with its byte strobes (R14, R51), or a pulse on
`rst` (R230). -/
inductive HostAccess where
  | read (addr : Word) (strobes : BitVec 4)
  | write (addr : Word) (data : Word) (strobes : BitVec 4)
  | rst
  deriving DecidableEq, Repr

/-- One access of the host's program. `coreFirst` says whether a command that is pending completes before this access
or is still in progress at it: Host and Core steps interleave in any order (R16; log entry 1). -/
structure HostReq where
  access : HostAccess
  coreFirst : Bool
  deriving DecidableEq, Repr

/-- The state of the EDES core (R20), then the model's own fields. -/
structure State where
  /-- STATUS.BUSY (R25). -/
  busy : Bool
  /-- STATUS.DONE (R26). -/
  done : Bool
  /-- STATUS.CTX_VALID (R24). -/
  ctxValid : Bool
  /-- STATUS.ERR (R27). -/
  err : BitVec 4
  /-- PENDING: the accepted command word, or none (R37). -/
  pending : Option Word
  /-- KEY_LEN (R29). -/
  keyLen : Word
  /-- MSG_LEN (R32). -/
  msgLen : Word
  /-- BLOCK (R33). -/
  block : Block
  /-- BUF_SIZE, the constant BUF_BYTES of the build (R8, R38). -/
  bufSize : Word
  /-- KEY (R34). -/
  key : Key
  /-- SBOX (R30). -/
  sbox : Boxes
  /-- The written mark of SBOX's bytes, which are written all together (R30, R44; log entry 6). -/
  sboxWritten : Bool
  /-- BUF (R31): the written bytes by offset, rising; an unlisted offset's written mark is false (R44; log entry 7). -/
  buf : List Host.Cell
  /-- WK, the generator's working key (R35). -/
  wk : Key
  /-- GEN_I, the box index (R36). -/
  genI : BitVec 4
  /-- GEN_J, the running index (R36). -/
  genJ : Byte
  /-- GEN_I2, the entry index (R36). -/
  genI2 : Byte
  /-- The generator's 256-byte working table (R36). -/
  genTable : SBox
  /-- RND, the round counter (R37). -/
  rnd : BitVec 4
  /-- BLK_IDX, the index of the block the driver processes (R37). -/
  blkIdx : Word
  /-- The model's own: the accesses the outside world still makes, in order (R14, R16; log entries 1 and 2). -/
  host : List HostReq
  /-- The model's own: the words bus reads have returned, newest first (R14; log entry 12). -/
  returned : List Word
  /-- The model's own: the counter the free values are applied to (log entry 8). -/
  draws : Nat
  deriving DecidableEq, Repr

/-- Why a step stops the machine. -/
inductive Fault where
  /-- A host access the bus answers with an error: misaligned or narrow (R51, R53, R210). Raised by `State.busRead` and
  `State.busWrite`. SAFE: the spec asks for this fault, and no claim covers what follows (log entry 10). -/
  | busError
  /-- A command reads a BUF byte whose written mark is false (R44, R211). Raised by UNPAD, ENC and DEC. SAFE: the spec
  asks for this fault; the chip would go on with what its RAM holds (log entries 7 and 10). -/
  | unwrittenRead
  deriving DecidableEq, Repr

/-- Why an instruction is given no meaning. -/
inductive Refusal where
  /-- An arm of `exec` without a meaning yet, by the table's mnemonic. SAFE. No arm is left that raises it. -/
  | notModelled (mnemonic : String)
  deriving DecidableEq, Repr

/-- What a command, a host access or a step answers. -/
abbrev Result := Host.Outcome State Fault Refusal

/-- The state after reset (R45, R230), of a build with the default BUF_BYTES. The hidden registers, the contents behind
SBOX's clear mark and the model's own fields are DESIGN CHOICES (log entries 2, 3, 4, 6, 8, 12). -/
def State.reset : State where
  busy := false
  done := false
  ctxValid := false
  err := 0
  pending := none
  keyLen := 0
  msgLen := 0
  block := ⟨⟨0, 0, 0, 0⟩, ⟨0, 0, 0, 0⟩⟩
  bufSize := BitVec.ofNat 32 Config.defaultBufBytes
  key := Vector.replicate Config.keyBytes 0
  sbox := Vector.replicate Config.rounds (Vector.replicate Config.sboxEntries 0)
  sboxWritten := false
  buf := []
  wk := Vector.replicate Config.keyBytes 0
  genI := 0
  genJ := 0
  genI2 := 0
  genTable := Vector.replicate Config.sboxEntries 0
  rnd := 0
  blkIdx := 0
  host := []
  returned := []
  draws := 0

end Sys2Proof.Machine
end

