-- ==== Sys2Proof/Machine/Flags.lean ====
section
/-! DEFINITION. STATUS: its codes, its word, and the lifecycle of a command (10_state.md R23 to R27; 30_encoding.md R73,
R74; 60_exceptions.md R200). The EDES core has no other flag (R40). -/

namespace Sys2Proof.Machine

/-- The 4-bit code of STATUS.ERR (R200). -/
def StatusCode.code (c : StatusCode) : BitVec 4 :=
  match c with
  | .success => 0
  | .invalidKeyLength => 1
  | .invalidCiphertextLength => 2
  | .invalidPadding => 3
  | .noContext => 4
  | .capacityExceeded => 5
  | .illegalCommand => 6

/-- STATUS as the host reads it (R23): BUSY bit 0, DONE bit 1, CTX_VALID bit 2, bit 3 zero, ERR bits 7:4, the rest zero. -/
def State.statusWord (s : State) : Word :=
  0#24 ++ s.err ++ 0#1 ++ BitVec.ofBool s.ctxValid ++ BitVec.ofBool s.done ++ BitVec.ofBool s.busy

/-- A write to CMD is accepted (R73): PENDING, BUSY, DONE and ERR are written, nothing else. -/
def State.accept (w : Word) (s : State) : State :=
  { s with pending := some w, busy := true, done := false, err := 0 }

/-- The lifecycle's end of a command with code `c` (R74): PENDING, BUSY, DONE and ERR are written, nothing else. -/
def State.complete (c : StatusCode) (s : State) : State :=
  { s with pending := none, busy := false, done := true, err := c.code }

end Sys2Proof.Machine
end

