-- ==== Sys2Proof/Machine/Ops.lean ====
section
/-! DEFINITION. The named operations over BUF and over the state: `MemRead` and `MemWrite` (00_scope.md R13; 20_memory.md
R61), `raise` (R13, R201), and what the hidden registers are left with (10_state.md R36, R37, R45). -/

namespace Sys2Proof.Machine

/-- `BUF[a]`, or nothing where its written mark is false (R44). -/
def Memory.read : List Host.Cell → Nat → Option Byte
  | [], _ => none
  | (b, v) :: m, a => if b = a then some v else Memory.read m a

/-- `BUF[a] <- v`, which sets the byte's written mark (R44); the list stays rising. -/
def Memory.write : List Host.Cell → Nat → Byte → List Host.Cell
  | [], a, v => [(a, v)]
  | (b, x) :: m, a, v =>
    if a < b then (a, v) :: (b, x) :: m
    else if a = b then (a, v) :: m
    else (b, x) :: Memory.write m a v

/-- Every offset of the list is above `a`, and the offsets rise. -/
def Memory.risesAbove : Nat → List Host.Cell → Bool
  | _, [] => true
  | a, (b, _) :: m => a < b && Memory.risesAbove b m

/-- The canonical form: the offsets rise strictly. A listed byte is a written one, so no value is left out. -/
def Memory.wf : List Host.Cell → Bool
  | [] => true
  | (b, _) :: m => Memory.risesAbove b m

/-- `MemRead(a, n)` (R13), or nothing where one of the bytes was never written (R44, R211). -/
def Memory.readBytes (m : List Host.Cell) : Nat → Nat → Option (List Byte)
  | _, 0 => some []
  | a, n + 1 =>
    match Memory.read m a, Memory.readBytes m (a + 1) n with
    | some v, some vs => some (v :: vs)
    | _, _ => none

/-- `MemWrite(a, n, v)` with `n` the number of bytes of `v` (R13). -/
def Memory.writeBytes (m : List Host.Cell) : Nat → List Byte → List Host.Cell
  | _, [] => m
  | a, v :: vs => Memory.writeBytes (Memory.write m a v) (a + 1) vs

/-- BUF_BYTES of the build (R8, R38). -/
def State.bufBytes (s : State) : Nat := s.bufSize.toNat

/-- The state with the host's remaining accesses replaced (R16). -/
def State.withHost (rest : List HostReq) (s : State) : State := { s with host := rest }

/-- `raise E` (R13, R201): the command ends with code `E`; the writes made before stay. The EDES core's only exception:
no trap is taken and no other register saved (R202, R208). -/
def State.raise (e : StatusCode) (s : State) : Result := .next (s.complete e)

/-- `return 0`: the command completes with Success (R74). -/
def State.finish (s : State) : Result := .next (s.complete .success)

/-- The check that opens every cipher command: NoContext without a context (R24, R244), else `k`. -/
def State.needContext (s : State) (k : Result) : Result :=
  if s.ctxValid then k else s.raise .noContext

/-- The generator has run: GEN_I, GEN_J, GEN_I2 and its table hold unspecified values afterwards (R36, R45; log entry 5). -/
def State.leaveGenerator (s : State) : State :=
  { s with
    genI := Config.freeGenI s.draws
    genJ := Config.freeGenJ s.draws
    genI2 := Config.freeGenI2 s.draws
    genTable := Config.freeGenTable s.draws
    draws := s.draws + 1 }

/-- The round engine has run: RND holds an unspecified value afterwards (R37, R45; log entry 5). -/
def State.leaveRounds (s : State) : State :=
  { s with rnd := Config.freeRnd s.draws, draws := s.draws + 1 }

/-- The block sequencer has run: BLK_IDX holds an unspecified value afterwards (R37, R45; log entry 5). -/
def State.leaveBlocks (s : State) : State :=
  { s with blkIdx := Config.freeBlkIdx s.draws, draws := s.draws + 1 }

end Sys2Proof.Machine
end

