-- ==== Sys2Proof/Machine/Operands.lean ====
section
/-! DEFINITION. How operands are read and written: the packing of bytes into words (20_memory.md R52), BLOCK as words and
as bytes (10_state.md R33), the KEY window (R34), S-box entries and blocks of BUF (20_memory.md R60, R61). -/

namespace Sys2Proof.Machine

/-- Byte `n` of a word, `w[8n+7:8n]` (R52). -/
def byteOf (w : Word) (n : Nat) : Byte := w.extractLsb' (8 * n) 8

/-- The word that carries four bytes, the byte at the lower address in the less significant bits (R52). -/
def packWord (x0 x1 x2 x3 : Byte) : Word := x3 ++ x2 ++ x1 ++ x0

/-- A half as the word BLOCK_L or BLOCK_R (R33). -/
def Half.toWord (h : Half) : Word := packWord h.b0 h.b1 h.b2 h.b3

/-- The half that a word of BLOCK_L or BLOCK_R carries (R33). -/
def Half.ofWord (w : Word) : Half := ⟨byteOf w 0, byteOf w 1, byteOf w 2, byteOf w 3⟩

/-- Byte-wise XOR of two halves (R142, R143). -/
def Half.xor (x y : Half) : Half := ⟨x.b0 ^^^ y.b0, x.b1 ^^^ y.b1, x.b2 ^^^ y.b2, x.b3 ^^^ y.b3⟩

/-- A half's bytes in order (R60). -/
def Half.toBytes (h : Half) : List Byte := [h.b0, h.b1, h.b2, h.b3]

/-- A block's bytes in order, the left half first (R33, R60). -/
def Block.toBytes (x : Block) : List Byte := x.left.toBytes ++ x.right.toBytes

/-- The block that eight bytes make up; nothing for any other number of bytes. -/
def Block.ofBytes : List Byte → Option Block
  | [x0, x1, x2, x3, x4, x5, x6, x7] => some ⟨⟨x0, x1, x2, x3⟩, ⟨x4, x5, x6, x7⟩⟩
  | _ => none

/-- `SBOX[b][e]` within one box. -/
def SBox.entry (t : SBox) (e : Byte) : Byte := t[e.toNat]'e.isLt

/-- `SBOX[r]`, the box the RND field selects (R75). -/
def Boxes.box (x : Boxes) (r : BitVec 4) : SBox := x[r.toNat]'r.isLt

/-- A write of word `w` to the KEY window at `0x020 + 4q`: `KEY[4q+n] <- w[8n+7:8n]` (R34). -/
def Key.storeWord (k : Key) (q : Nat) (w : Word) : Key :=
  Vector.ofFn fun i => if i.val / 4 = q then byteOf w (i.val % 4) else k[i]

/-- `MemRead(8n, 8)` as a block (R60, R61); nothing where one of the bytes was never written. -/
def Memory.readBlock (m : List Host.Cell) (n : Nat) : Option Block :=
  (Memory.readBytes m (8 * n) 8).bind Block.ofBytes

/-- `MemWrite(8n, 8, x)` (R60, R61). -/
def Memory.writeBlock (m : List Host.Cell) (n : Nat) (x : Block) : List Host.Cell :=
  Memory.writeBytes m (8 * n) x.toBytes

end Sys2Proof.Machine
end

