-- ==== Sys2Proof/Machine/Control.lean ====
section
/-! DEFINITION. The control commands NOP and CLRCTX (44_control.md), and what an illegal command word does (30_encoding.md
R76). -/

namespace Sys2Proof.Machine

/-- NOP (R180): `return 0`. -/
def execNop (s : State) : Result := s.finish

/-- The table CLRCTX leaves in every box: 256 entries of zero (R181). -/
def zeroBox : SBox := Vector.replicate Config.sboxEntries 0

/-- A key store of 32 zero bytes (R108, R181). -/
def zeroKey : Key := Vector.replicate Config.keyBytes 0

/-- CLRCTX (R181): SBOX and KEY to zero, CTX_VALID to 0; every byte of SBOX is marked written. -/
def execClrctx (s : State) : Result :=
  State.finish { s with
    sbox := Vector.replicate Config.rounds zeroBox
    sboxWritten := true
    key := zeroKey
    ctxValid := false }

/-- A word that `Decode` rejects completes with IllegalCommand and writes nothing else (R74, R76), whatever the reason. -/
def execIllegal (_why : DecodeError) (s : State) : Result := s.raise .illegalCommand

end Sys2Proof.Machine
end

