-- ==== Sys2Proof/Machine/Bus.lean ====
section
/-! DEFINITION. The host bus: the address map, what a read returns, what a write does, and the reset input (20_memory.md;
10_state.md R23 to R39; 70_reset_and_hazards.md R230, R231, R242, R243). -/

namespace Sys2Proof.Machine

/-- The regions of the address map (R54); a window carries the offset of the access within it. -/
inductive Region where
  | cmd
  | status
  | keyLen
  | msgLen
  | blockL
  | blockR
  | bufSize
  | key (off : Nat)
  | sbox (off : Nat)
  | buf (off : Nat)
  | reserved
  deriving DecidableEq, Repr

/-- The region of a block-local byte address, of a build with `bufBytes` bytes of BUF (R54). -/
def regionOf (bufBytes a : Nat) : Region :=
  if a = 0x000 then .cmd
  else if a = 0x004 then .status
  else if a = 0x008 then .keyLen
  else if a = 0x00C then .msgLen
  else if a = 0x010 then .blockL
  else if a = 0x014 then .blockR
  else if a = 0x018 then .bufSize
  else if 0x020 ≤ a ∧ a < 0x040 then .key (a - 0x020)
  else if 0x1000 ≤ a ∧ a < 0x2000 then .sbox (a - 0x1000)
  else if 0x10000 ≤ a ∧ a < 0x10000 + bufBytes then .buf (a - 0x10000)
  else .reserved

/-- The region an address selects in this build. -/
def State.region (s : State) (addr : Word) : Region := regionOf s.bufBytes addr.toNat

/-- The bus answers an access with an error: misaligned (R53), or a byte strobe clear (R51). -/
def busRefuses (addr : Word) (strobes : BitVec 4) : Bool := addr.toNat % 4 != 0 || strobes != 0xF

/-- Byte `off` of the SBOX store, `SBOX[off div 256][off mod 256]` (R30, R55). -/
def Boxes.byteAt (x : Boxes) (off : Nat) : Byte :=
  (x[off / 256 % 16]'(Nat.mod_lt _ (by decide)))[off % 256]'(Nat.mod_lt _ (by decide))

/-- The SBOX window at offset `off` (R55); the word drawn, `d`, where the store was never written (R44). -/
def State.sboxWord (s : State) (off : Nat) (d : Word) : Word :=
  if s.sboxWritten then
    packWord (s.sbox.byteAt off) (s.sbox.byteAt (off + 1)) (s.sbox.byteAt (off + 2)) (s.sbox.byteAt (off + 3))
  else d

/-- The BUF window at offset `off` (R56); a byte never written is taken from the word drawn, `d` (R44). -/
def State.bufWord (s : State) (off : Nat) (d : Word) : Word :=
  packWord ((Memory.read s.buf off).getD (byteOf d 0)) ((Memory.read s.buf (off + 1)).getD (byteOf d 1))
    ((Memory.read s.buf (off + 2)).getD (byteOf d 2)) ((Memory.read s.buf (off + 3)).getD (byteOf d 3))

/-- What a read that the bus performs returns, `d` being the word it draws where the spec says "any value": while a
command is in progress only STATUS, BUF_SIZE and the addresses that always read 0 are exact (R243). -/
def State.readValue (s : State) (r : Region) (d : Word) : Word :=
  match r with
  | .cmd => 0
  | .status => s.statusWord
  | .bufSize => s.bufSize
  | .key _ => 0
  | .reserved => 0
  | .keyLen => if s.busy then d else s.keyLen
  | .msgLen => if s.busy then d else s.msgLen
  | .blockL => if s.busy then d else s.block.left.toWord
  | .blockR => if s.busy then d else s.block.right.toWord
  | .sbox off => if s.busy then d else s.sboxWord off d
  | .buf off => if s.busy then d else s.bufWord off d

/-- `BusRead(addr)` (R14, R58): the word goes to the host, nothing else changes. Each read has a draw of its own (log
entry 8). -/
def State.busRead (addr : Word) (strobes : BitVec 4) (s : State) : Result :=
  if busRefuses addr strobes then .fault .busError
  else .next { s with
    returned := s.readValue (s.region addr) (Config.draw s.draws) :: s.returned
    draws := s.draws + 1 }

/-- What a write of `w` does to a region while no command is in progress (R54): CMD accepts it as a command, the data
registers and windows store it, every other region ignores it. -/
def State.writeRegion (r : Region) (w : Word) (s : State) : State :=
  match r with
  | .cmd => s.accept w
  | .keyLen => { s with keyLen := w }
  | .msgLen => { s with msgLen := w }
  | .blockL => { s with block := ⟨Half.ofWord w, s.block.right⟩ }
  | .blockR => { s with block := ⟨s.block.left, Half.ofWord w⟩ }
  | .key off => { s with key := s.key.storeWord (off / 4) w }
  | .buf off => { s with buf := Memory.writeBytes s.buf off [byteOf w 0, byteOf w 1, byteOf w 2, byteOf w 3] }
  | .status => s
  | .bufSize => s
  | .sbox _ => s
  | .reserved => s

/-- `BusWrite(addr, w)` (R14): dropped while a command is in progress, at any address (R242). A bus error comes first
(log entry 9). -/
def State.busWrite (addr w : Word) (strobes : BitVec 4) (s : State) : Result :=
  if busRefuses addr strobes then .fault .busError
  else if s.busy then .next s
  else .next (s.writeRegion (s.region addr) w)

/-- A pulse on `rst` (R230, R231): the state of reset, of the same build; a command in progress is abandoned. What the
host still has to do and what it has read are not the block's (log entry 11). -/
def State.resetPulse (s : State) : State :=
  { State.reset with bufSize := s.bufSize, host := s.host, returned := s.returned, draws := s.draws }

/-- One access of the outside world. -/
def hostAccess (a : HostAccess) (s : State) : Result :=
  match a with
  | .read addr strobes => s.busRead addr strobes
  | .write addr data strobes => s.busWrite addr data strobes
  | .rst => .next s.resetPulse

end Sys2Proof.Machine
end

