-- ==== Sys2Proof/Machine/Padding.lean ====
section
/-! DEFINITION. The padding codec and the commands PAD and UNPAD (41_padding.md). -/

namespace Sys2Proof.Machine

/-- `PadValue(L) = 8 - (L mod 8)` (R120). -/
def padValue (l : Nat) : Nat := 8 - l % 8

/-- The bytes that padding appends to a message of `l` bytes (R121): `PadValue(l)` copies of `PadValue(l)`. -/
def padding (l : Nat) : List Byte := List.replicate (padValue l) (BitVec.ofNat 8 (padValue l))

/-- `UnpadLen(L, v)` (R123): exactly two checks, and nothing stands for InvalidPadding. -/
def unpadLen (l : Nat) (v : Byte) : Option Nat :=
  if v.toNat = 0 ∨ l < v.toNat then none else some (l - v.toNat)

/-- MSG_LEN as an unbounded integer (R122, R124). -/
def State.length (s : State) : Nat := s.msgLen.toNat

/-- `MSG_LEN <- n`. -/
def State.setLength (n : Nat) (s : State) : State := { s with msgLen := BitVec.ofNat 32 n }

/-- The capacity check of PAD and ENC (R122, R166): the message, then its padded form as an unbounded sum, must fit in BUF. -/
def State.padFits (s : State) : Bool :=
  s.length ≤ s.bufBytes && s.length + padValue s.length ≤ s.bufBytes

/-- BUF after the padding is appended to the message (R122). -/
def State.paddedBuf (s : State) : List Host.Cell := Memory.writeBytes s.buf s.length (padding s.length)

/-- The end of UNPAD and DEC (R124, R168): the last byte of the message is read and taken off the length. -/
def State.unpad (s : State) : Result :=
  match Memory.read s.buf (s.length - 1) with
  | none => .fault .unwrittenRead
  | some v =>
    match unpadLen s.length v with
    | none => s.raise .invalidPadding
    | some r => (s.setLength r).finish

/-- PAD (R122). No byte of the message is read. -/
def execPad (s : State) : Result :=
  if s.padFits then
    State.finish (State.setLength (s.length + padValue s.length) { s with buf := s.paddedBuf })
  else s.raise .capacityExceeded

/-- UNPAD (R124). -/
def execUnpad (s : State) : Result :=
  if s.bufBytes < s.length then s.raise .capacityExceeded
  else if s.length = 0 then s.raise .invalidPadding
  else s.unpad

end Sys2Proof.Machine
end

