-- ==== Sys2Proof/Machine/Round.lean ====
section
/-! DEFINITION. The Feistel round engine and the commands ENCR and DECR (42_feistel_round.md). -/

namespace Sys2Proof.Machine

/-- `Fsb(h, S)`, the chained lookup (R140), unrolled as R140 does: the running index sums the bytes of the half modulo
256, and the output is filled from byte 3 down to byte 0. -/
def fsb (h : Half) (t : SBox) : Half :=
  let s0 := h.b0
  let s1 := s0 + h.b1
  let s2 := s1 + h.b2
  let s3 := s2 + h.b3
  ⟨t.entry s3, t.entry s2, t.entry s1, t.entry s0⟩

/-- `EncRound(x, S)` (R142): new left = old right, new right = left XOR Fsb(right). -/
def encRound (x : Block) (t : SBox) : Block := ⟨x.right, x.left.xor (fsb x.right t)⟩

/-- `DecRound(x, S)` (R143): new left = right XOR Fsb(left), new right = old left. -/
def decRound (x : Block) (t : SBox) : Block := ⟨x.right.xor (fsb x.left t), x.left⟩

/-- `BLOCK <- x` by the round engine, which leaves its round counter unspecified (R37; log entry 5). -/
def State.engineWrites (x : Block) (s : State) : State := State.leaveRounds { s with block := x }

/-- ENCR r (R145). -/
def execEncr (r : BitVec 4) (s : State) : Result :=
  s.needContext (s.engineWrites (encRound s.block (s.sbox.box r))).finish

/-- DECR r (R146). -/
def execDecr (r : BitVec 4) (s : State) : Result :=
  s.needContext (s.engineWrites (decRound s.block (s.sbox.box r))).finish

end Sys2Proof.Machine
end

