-- ==== Sys2Proof/Machine/Driver.lean ====
section
/-! DEFINITION. The block cipher driver and the commands ENCB, DECB, ENC and DEC (43_block_driver.md). -/

namespace Sys2Proof.Machine

/-- The round indices 0, 1, ..., 15 in order (R160). -/
def roundIndices : List (BitVec 4) := (List.range Config.rounds).map (BitVec.ofNat 4)

/-- `EncBlock(x, box)` (R160): rounds 0..15 in ascending order, no half swap before or after. -/
def encBlock (x : Block) (box : Boxes) : Block :=
  roundIndices.foldl (fun y i => encRound y (box.box i)) x

/-- `DecBlock(x, box)` (R161): rounds 15 down to 0, no half swap before or after. -/
def decBlock (x : Block) (box : Boxes) : Block :=
  roundIndices.reverse.foldl (fun y i => decRound y (box.box i)) x

/-- ECB sequencing (R165): `count` blocks from block `n` on, in increasing order, each written back where it was read
from. Nothing where a byte of one of them was never written (R211). -/
def cryptBlocks (f : Block → Block) : Nat → Nat → List Host.Cell → Option (List Host.Cell)
  | 0, _, m => some m
  | count + 1, n, m =>
    match Memory.readBlock m n with
    | none => none
    | some x => cryptBlocks f count (n + 1) (Memory.writeBlock m n (f x))

/-- BUF after the driver has run over it; it leaves RND and BLK_IDX unspecified (R37; log entry 5). -/
def State.driverWrites (m : List Host.Cell) (s : State) : State :=
  State.leaveBlocks (State.leaveRounds { s with buf := m })

/-- ENCB (R162). -/
def execEncb (s : State) : Result :=
  s.needContext (s.engineWrites (encBlock s.block s.sbox)).finish

/-- DECB (R164). -/
def execDecb (s : State) : Result :=
  s.needContext (s.engineWrites (decBlock s.block s.sbox)).finish

/-- The length of a message of `l` bytes once padded (R121). -/
def paddedLength (l : Nat) : Nat := l + padValue l

/-- ENC (R166): NoContext, CapacityExceeded, then pad, encrypt every block, and write the new length. -/
def execEnc (s : State) : Result :=
  s.needContext <|
    if s.padFits then
      match cryptBlocks (fun x => encBlock x s.sbox) (paddedLength s.length / 8) 0 s.paddedBuf with
      | none => .fault .unwrittenRead
      | some m => (State.setLength (paddedLength s.length) (s.driverWrites m)).finish
    else s.raise .capacityExceeded

/-- DEC (R168): NoContext, CapacityExceeded, InvalidCiphertextLength, then decrypt every block and unpad; InvalidPadding
leaves the decrypted blocks in BUF. -/
def execDec (s : State) : Result :=
  s.needContext <|
    if s.bufBytes < s.length then s.raise .capacityExceeded
    else if s.length = 0 ∨ s.length % 8 ≠ 0 then s.raise .invalidCiphertextLength
    else
      match cryptBlocks (fun x => decBlock x s.sbox) (s.length / 8) 0 s.buf with
      | none => .fault .unwrittenRead
      | some m => (s.driverWrites m).unpad

end Sys2Proof.Machine
end

