-- ==== Sys2Proof/Machine/Generator.lean ====
section
/-! DEFINITION. The S-box generator and the command MKCTX (40_sbox_generator.md). -/

namespace Sys2Proof.Machine

/-- `KeyStep(wk, i)` (R102): positions 0..30 take the next position XOR `i`, position 31 stays. -/
def keyStep (wk : Key) (i : Byte) : Key :=
  Vector.ofFn fun p => if h : p.val < 31 then wk[p.val + 1]'(Nat.succ_lt_succ h) ^^^ i else wk[p]

/-- The working key before box `i`: KeyStep for 1, 2, ..., `i` in turn (R102); the key itself before box 0. -/
def workingKey (key : Key) : Nat → Key
  | 0 => key
  | i + 1 => keyStep (workingKey key i) (BitVec.ofNat 8 (i + 1))

/-- The running index a box starts from: the sum of all 32 bytes modulo 256 (R103). -/
def startIndex (wk : Key) : Byte := BitVec.ofNat 8 (wk.toList.map BitVec.toNat).sum

/-- The identity table a box starts from (R103). -/
def identityBox : SBox := Vector.ofFn fun e => BitVec.ofNat 8 e.val

/-- The running index after iteration `i2` (R104): `k` is taken with the index before the update. -/
def nextIndex (wk : Key) (t : SBox) (j i2 : Byte) : Byte :=
  j + wk[((t.entry i2).toNat + (t.entry j).toNat) % Config.keyIndexMod]'(Nat.mod_lt _ (by decide))

/-- One iteration of the shuffle on `(j, T)` (R104): the index is updated, then the two entries swapped. -/
def shuffleStep (wk : Key) (jt : Byte × SBox) (i2 : Byte) : Byte × SBox :=
  let j := nextIndex wk jt.2 jt.1 i2
  (j, jt.2.swap i2.toNat j.toNat i2.isLt j.isLt)

/-- The 256 byte values in rising order. -/
def allBytes : List Byte := (List.range Config.sboxEntries).map (BitVec.ofNat 8)

/-- `GenBox(wk)` (R103, R104). -/
def genBox (wk : Key) : SBox := (allBytes.foldl (shuffleStep wk) (startIndex wk, identityBox)).2

/-- `Gen(key)` (R105): box `i` is built from the working key as the transforms 1..i left it. -/
def gen (key : Key) : Boxes := Vector.ofFn fun i => genBox (workingKey key i.val)

/-- KEY and WK are cleared at the end of MKCTX, with either status (R108). -/
def State.clearKey (s : State) : State := { s with key := zeroKey, wk := zeroKey }

/-- MKCTX (R106, R107, R108): the whole of KEY_LEN must be 32; then SBOX is the context of KEY. A failed MKCTX leaves
SBOX and CTX_VALID as they were. -/
def execMkctx (s : State) : Result :=
  if s.keyLen ≠ BitVec.ofNat 32 Config.keyBytes then s.clearKey.raise .invalidKeyLength
  else
    State.finish (State.leaveGenerator (State.clearKey { s with
      sbox := gen s.key
      sboxWritten := true
      ctxValid := true }))

end Sys2Proof.Machine
end

