-- ==== Sys2Proof/Machine/Dispatch.lean ====
section
/-! DEFINITION. Which meaning each command has: one arm per constructor of Instr, in the order of 30_encoding.md R71. -/

namespace Sys2Proof.Machine

def exec (i : Instr) (s : State) : Host.Outcome State Fault Refusal :=
  match i with
  | .nop => Sys2Proof.Machine.execNop s
  | .mkctx => Sys2Proof.Machine.execMkctx s
  | .pad => Sys2Proof.Machine.execPad s
  | .unpad => Sys2Proof.Machine.execUnpad s
  | .encr r => Sys2Proof.Machine.execEncr r s
  | .decr r => Sys2Proof.Machine.execDecr r s
  | .encb => Sys2Proof.Machine.execEncb s
  | .decb => Sys2Proof.Machine.execDecb s
  | .enc => Sys2Proof.Machine.execEnc s
  | .dec => Sys2Proof.Machine.execDec s
  | .clrctx => Sys2Proof.Machine.execClrctx s

end Sys2Proof.Machine
end

