-- ==== Sys2Proof/Machine/Sequencer.lean ====
section
/-! DEFINITION. Whose turn it is, and what the Core and the host do in theirs (00_scope.md R16; 30_encoding.md R74). -/

namespace Sys2Proof.Machine

/-- The Core's step on the command word `w` (R74): decode it, and perform the whole command at once. -/
def coreStep (w : Word) (s : State) : Result :=
  match decode w with
  | .ok i => exec i s
  | .error why => execIllegal why s

/-- The Core's turn: it has a step exactly when PENDING holds a word (R74); an idle block stays as it is (R232; log
entry 14). -/
def coreTurn (s : State) : Result :=
  match s.pending with
  | some w => coreStep w s
  | none => .next s

/-- A pending command completes before the host's next access (R16; log entry 1). -/
def State.coreGoesFirst (s : State) (r : HostReq) : Bool := r.coreFirst && s.pending.isSome

/-- One step of Host or Core (R16): the host makes its next access unless the Core goes first or there is none left. -/
def turn (s : State) : Result :=
  match s.host with
  | [] => coreTurn s
  | r :: rest => if s.coreGoesFirst r then coreTurn s else hostAccess r.access (s.withHost rest)

end Sys2Proof.Machine
end

