-- ==== Sys2Proof/Machine/Step.lean ====
section
/-! DEFINITION. The step of the machine, and the state in which the next step runs a given command word. -/

namespace Sys2Proof.Machine

/-- One step of the machine (R16, R74). -/
def step (s : State) : Host.Outcome State Fault Refusal := turn s

/-- `s` with the command word `w` accepted (R73), as if the host had just written it to CMD, and no host access before the
Core's step. A command is one 32-bit word (R70), so the bits above `nbits` are zero (log entry 2). -/
def State.withFetchWord (s : State) (nbits w : Nat) : State :=
  (s.accept (BitVec.ofNat 32 (w % 2 ^ nbits))).withHost []

end Sys2Proof.Machine
end

