-- ==== Sys2Proof/Machine/HostProgram.lean ====
section
/-! DEFINITION. The host's notation for its programs: WR, RD, POLL and the pseudo-instructions, as the accesses they
expand into (30_encoding.md R77, R78). It is the host's, not the block's. -/

namespace Sys2Proof.Machine

/-- The addresses by name (R77). -/
def addrCmd : Word := 0x000
def addrStatus : Word := 0x004
def addrKeyLen : Word := 0x008
def addrMsgLen : Word := 0x00C
def addrBlockL : Word := 0x010
def addrBlockR : Word := 0x014
def addrBufSize : Word := 0x018
def addrKey (off : Nat) : Word := BitVec.ofNat 32 (0x020 + off)
def addrSbox (off : Nat) : Word := BitVec.ofNat 32 (0x1000 + off)
def addrBuf (off : Nat) : Word := BitVec.ofNat 32 (0x10000 + off)

/-- `WR addr, w` (R77), all four strobes. R77 does not say whether a command still pending completes before the access, and
R16 allows both: `coreFirst` says which (log entry 17). -/
def hostWrite (addr w : Word) (coreFirst : Bool := false) : HostReq := ⟨.write addr w 0xF, coreFirst⟩

/-- `RD addr` (R77), all four strobes; `coreFirst` as for `WR` (log entry 17). -/
def hostRead (addr : Word) (coreFirst : Bool := false) : HostReq := ⟨.read addr 0xF, coreFirst⟩

/-- `POLL` (R77): reads of STATUS that find BUSY = 1, as many as `misses`, then the one that finds BUSY = 0 because the
command has completed before it (log entry 17). -/
def hostPoll (misses : Nat) : List HostReq :=
  List.replicate misses (hostRead addrStatus false) ++ [hostRead addrStatus true]

/-- Words written to rising word addresses from `addr` on, each with its flag of `coreFirst`, false where that list has
ended (log entry 17). -/
def hostWrites (addr : Nat → Word) : Nat → List Word → List Bool → List HostReq
  | _, [], _ => []
  | off, w :: ws, coreFirst =>
    hostWrite (addr off) w (coreFirst.headD false) :: hostWrites addr (off + 4) ws coreFirst.tail

/-- A line of a host program (R77, R78). Each line says how its accesses fall beside a command still pending (R16); where a
line does not say, they come before the command completes, which is the notation's default and no rule of the spec (log
entry 17). -/
inductive HostLine where
  | wr (addr w : Word) (coreFirst : Bool := false)
  | rd (addr : Word) (coreFirst : Bool := false)
  | poll (misses : Nat)
  | command (i : Instr) (misses : Nat) (coreFirst : Bool := false)
  | ldkey (ws : Vector Word 8) (coreFirst : List Bool := [])
  | ldbuf (a : Nat) (ws : List Word) (coreFirst : List Bool := [])
  deriving DecidableEq, Repr

/-- The expansion of a line (R78): a command is `WR CMD` of its word, then POLL; LDKEY writes eight words of the KEY window,
then KEY_LEN. -/
def HostLine.expand (l : HostLine) : List HostReq :=
  match l with
  | .wr addr w coreFirst => [hostWrite addr w coreFirst]
  | .rd addr coreFirst => [hostRead addr coreFirst]
  | .poll misses => hostPoll misses
  | .command i misses coreFirst => hostWrite addrCmd (encode i) coreFirst :: hostPoll misses
  | .ldkey ws coreFirst =>
    hostWrites addrKey 0 ws.toList coreFirst ++ [hostWrite addrKeyLen 32 ((coreFirst.drop 8).headD false)]
  | .ldbuf a ws coreFirst => hostWrites addrBuf a ws coreFirst

/-- A host program to be run from this state. -/
def State.withHostProgram (p : List HostLine) (s : State) : State :=
  s.withHost (p.flatMap HostLine.expand)

end Sys2Proof.Machine
end

