-- ==== Sys2Proof/Machine/Timing.lean ====
section
/-! DEFINITION. The latencies of R240 as a function of a build's parameters. No step reads them: the model has no time
(70_reset_and_hazards.md R240; log entry 13). -/

namespace Sys2Proof.Machine

/-- The latency in clock cycles of a command that processes `blocks` blocks of BUF (R240). -/
def commandCycles (l : Config.Latencies) (i : Instr) (blocks : Nat) : Nat :=
  match i with
  | .mkctx => l.mkctx
  | .encr _ | .decr _ => l.round
  | .encb | .decb => l.block
  | .enc | .dec => l.block * blocks + l.padding
  | .pad | .unpad => l.padding
  | .nop | .clrctx => l.cmd

/-- The latency of a word that `Decode` rejects (R240). -/
def illegalCycles (l : Config.Latencies) : Nat := l.cmd

end Sys2Proof.Machine
end

