-- ==== Sys2Proof/Safety.lean ====
section
/-! DEFINITION. What claims about the machine are stated in: the invariant, when a run is over, whose turn it is, what a
host sees of an access, and messages as bytes and blocks. -/

namespace Sys2Proof.Machine

/-- A run is over: the host has made its last access and no command is in progress (00_scope.md R17). -/
def State.final (s : State) : Prop := s.host = [] ∧ s.busy = false

/-- The Core has the next step: no host access is left, or the command completes before the next one (R16). -/
def State.coreHasTurn (s : State) : Prop := s.host = [] ∨ ∃ r rest, s.host = r :: rest ∧ r.coreFirst = true

/-- Every written byte of BUF lies within the buffer (R31). -/
def State.bufWithin (s : State) : Prop := ∀ c ∈ s.buf, c.1 < s.bufBytes

/-- BUSY is 1 exactly when PENDING holds a command (R25); DONE and ERR are 0 while it is (R243); ERR is a code of R200. -/
def State.lifecycleOk (s : State) : Prop :=
  s.busy = s.pending.isSome ∧ (s.busy = true → s.done = false ∧ s.err = 0) ∧ s.err.toNat ≤ 6

/-- A valid context is written and is the generator's output on some key (R42). -/
def State.contextOk (s : State) : Prop :=
  s.ctxValid = true → s.sboxWritten = true ∧ ∃ key, s.sbox = gen key

/-- The invariant of the machine: BUF in canonical form and within the buffer, the lifecycle fields consistent, a valid
context genuine, BUF_BYTES as R8 asks. -/
structure State.Inv (s : State) : Prop where
  bufCanonical : Memory.wf s.buf = true
  bufWithin : s.bufWithin
  lifecycle : s.lifecycleOk
  context : s.contextOk
  size : Config.bufBytesLegal s.bufBytes = true

/-- The state without what no host access can observe (10_state.md R35 to R37): WK, the generator's registers, RND and
BLK_IDX. -/
def State.eraseHidden (s : State) : State :=
  { s with
    wk := zeroKey
    genI := 0
    genJ := 0
    genI2 := 0
    genTable := zeroBox
    rnd := 0
    blkIdx := 0 }

/-- Two answers agree: the same stop, or next states related by `rel`. -/
def Result.agree (rel : State → State → Prop) (x y : Result) : Prop :=
  match x, y with
  | .next t, .next u => rel t u
  | .fault f, .fault g => f = g
  | .refused r, .refused q => r = q
  | _, _ => False

/-- A whole-word read of `addr`, made when it is the host's turn, returns `v` and leaves the block as it is
(log entries 8 and 12 for the two fields of the model's own). -/
def State.readsAs (s : State) (addr v : Word) : Prop :=
  ∀ rest c, (c = false ∨ s.pending = none) →
    step (s.withHost (⟨.read addr 0xF, c⟩ :: rest)) =
      .next { s with host := rest, returned := v :: s.returned, draws := s.draws + 1 }

/-- A whole-word write of `w` to `addr`, made when it is the host's turn, takes the block from `s` to `t`. -/
def State.writesTo (s : State) (addr w : Word) (t : State) : Prop :=
  ∀ rest c, (c = false ∨ s.pending = none) →
    step (s.withHost (⟨.write addr w 0xF, c⟩ :: rest)) = .next (t.withHost rest)

/-- The addresses that the map marks reserved (20_memory.md R54). -/
def State.reservedAddr (s : State) (addr : Word) : Prop :=
  addr.toNat = 0x1C ∨ (0x40 ≤ addr.toNat ∧ addr.toNat ≤ 0xFFF) ∨ (0x2000 ≤ addr.toNat ∧ addr.toNat ≤ 0xFFFF) ∨
    0x10000 + s.bufSize.toNat ≤ addr.toNat

/-- Every byte of the message `BUF[0..MSG_LEN-1]` has been written (R211). -/
def State.messageWritten (s : State) : Prop := ∀ a, a < s.msgLen.toNat → (Memory.read s.buf a).isSome = true

/-- The message as ENC pads it (R121, R166): the bytes of BUF, then PadValue(L) bytes of PadValue(L). -/
def State.paddedByte (s : State) (a : Nat) : Option Byte :=
  if a < s.msgLen.toNat then Memory.read s.buf a else some (BitVec.ofNat 8 (padValue s.msgLen.toNat))

/-- Block `n` of a byte sequence is `x` (R60). -/
def blockAt (bytes : Nat → Option Byte) (n : Nat) (x : Block) : Prop :=
  ∀ k, k < 8 → bytes (8 * n + k) = x.toBytes[k]?

/-- The state a command ends in, of which the caller says what else it wrote: the lifecycle fields as R74 leaves them with
code `code`. -/
def State.ended (s : State) (code : BitVec 4) : State :=
  { s with pending := none, busy := false, done := true, err := code }

/-- Commands run one after another, each to a next state; nothing where one does not. -/
def execAll : List Instr → State → Option State
  | [], s => some s
  | i :: is, s =>
    match exec i s with
    | .next t => execAll is t
    | .fault _ => none
    | .refused _ => none

end Sys2Proof.Machine
end

