-- ==== Sys2Proof/Certificates/Slice0/Obligations.lean ====
section
/-! DEFINITION. The statements for the provers, in the order of OBLIGATIONS.json. -/

section

open Sys2Proof Sys2Proof.Machine

/-! ## Encoding and decode (30_encoding.md) -/

/-- R72: each legal command is exactly the word of its encoding, and every other word is Illegal. -/
def Obligations.DecodeExactlyInvertsEncode : Prop :=
  ∀ (w : Word) (i : Instr), decode w = .ok i ↔ w = encode i

/-- R76: when a word is an illegal command, that it is accepted like any other, and that it completes with code 6 and no
other state change. -/
def Obligations.IllegalWordsCompleteWithCodeSix : Prop :=
  (∀ w : Word, (∃ why, decode w = .error why) ↔
    0xB ≤ (w.extractLsb' 0 4).toNat ∨ w.extractLsb' 8 24 ≠ 0 ∨
      (w.extractLsb' 4 4 ≠ 0 ∧ w.extractLsb' 0 4 ≠ 4 ∧ w.extractLsb' 0 4 ≠ 5)) ∧
  ∀ (s : State) (w : Word) (why : DecodeError), decode w = .error why →
    (s.busy = false → s.writesTo 0x000 w { s with pending := some w, busy := true, done := false, err := 0 }) ∧
    (s.coreHasTurn → s.pending = some w → step s = .next (s.ended 6))

/-- R79: a word selects a row of the opcode table exactly when it decodes to that row's command, so the rows exclude each
other and a word that matches no row is Illegal. -/
def Obligations.TableRowSelectsItsCommand : Prop :=
  (∀ (w : Word) (i : Instr), w &&& (tableRow i).2 = (tableRow i).1 ↔
    ∃ j, decode w = .ok j ∧ opcodeOf j = opcodeOf i) ∧
  ∀ w : Word, (∃ why, decode w = .error why) ↔ ∀ i : Instr, w &&& (tableRow i).2 ≠ (tableRow i).1

/-- Words written out bit by bit from R70 and R71, one per family and some illegal ones (vectors V17). Which reason a
rejected word names is the model's choice (log entry 15). -/
def Obligations.SampleWordsDecode : Prop :=
  decode 0b00000000000000000000000000000000 = .ok .nop ∧
  decode 0b00000000000000000000000000000001 = .ok .mkctx ∧
  decode 0b00000000000000000000000000000010 = .ok .pad ∧
  decode 0b00000000000000000000000011110100 = .ok (.encr 15) ∧
  decode 0b00000000000000000000000000000111 = .ok .decb ∧
  decode 0b00000000000000000000000000001010 = .ok .clrctx ∧
  decode 0b00000000000000000000000000001011 = .error .reservedOpcode ∧
  decode 0b00000000000000000000000000010110 = .error .nonzeroRound ∧
  decode 0b00000000000000000000000100000100 = .error .nonzeroReserved

/-! ## Reset (10_state.md R45; 70_reset_and_hazards.md) -/

/-- R45: every value the table of R45 states for reset, and STATUS as the host reads it. -/
def Obligations.ResetLeavesTheStatedValues : Prop :=
  State.reset.busy = false ∧ State.reset.done = false ∧ State.reset.ctxValid = false ∧ State.reset.err = 0 ∧
  State.reset.statusWord = 0 ∧ State.reset.pending = none ∧ State.reset.keyLen = 0 ∧ State.reset.msgLen = 0 ∧
  State.reset.block = ⟨⟨0, 0, 0, 0⟩, ⟨0, 0, 0, 0⟩⟩ ∧ (∀ n : Fin 32, State.reset.key[n] = 0) ∧
  State.reset.sboxWritten = false ∧ (∀ a, Memory.read State.reset.buf a = none) ∧
  State.reset.readsAs 0x018 (BitVec.ofNat 32 State.reset.bufBytes)

/-- R230, R231: a pulse on `rst` leaves the stated values whatever was in progress, and the build's BUF_SIZE. That the
accesses still to come and the words already returned stay is the model's choice (log entry 11). -/
def Obligations.ResetPulseAbandonsTheCommand : Prop :=
  ∀ (s : State) (rest : List HostReq) (c : Bool), s.host = ⟨.rst, c⟩ :: rest → (c = false ∨ s.pending = none) →
    ∃ t, step s = .next t ∧ t.busy = false ∧ t.done = false ∧ t.ctxValid = false ∧ t.err = 0 ∧ t.pending = none ∧
      t.keyLen = 0 ∧ t.msgLen = 0 ∧ t.block = ⟨⟨0, 0, 0, 0⟩, ⟨0, 0, 0, 0⟩⟩ ∧ (∀ n : Fin 32, t.key[n] = 0) ∧
      t.sboxWritten = false ∧ (∀ a, Memory.read t.buf a = none) ∧ t.bufSize = s.bufSize ∧
      t.host = rest ∧ t.returned = s.returned

/-! ## The step and the lifecycle of a command (30_encoding.md R73, R74) -/

/-- R74: in the Core's turn a pending word that decodes to `i` is run as `exec i`, nothing added. -/
def Obligations.StepRunsTheDecodedCommand : Prop :=
  ∀ (s : State) (w : Word) (i : Instr), s.coreHasTurn → s.pending = some w → decode w = .ok i → step s = exec i s

/-- R73: a write to CMD while BUSY is 0 is accepted, and one while BUSY is 1 is dropped. -/
def Obligations.CmdWriteIsAcceptedWhenIdle : Prop :=
  ∀ (s : State) (w : Word),
    (s.busy = false → s.writesTo 0x000 w { s with pending := some w, busy := true, done := false, err := 0 }) ∧
    (s.busy = true → s.writesTo 0x000 w s)

/-- R242: while BUSY is 1 a write to any word address has no effect, and no error is reported. -/
def Obligations.WritesWhileBusyAreDropped : Prop :=
  ∀ (s : State) (addr w : Word), s.busy = true → addr.toNat % 4 = 0 → s.writesTo addr w s

/-- R51, R53: in the host's turn the fault `busError` is answered exactly to a misaligned or narrow access, and no other
step answers it. That it comes before the drop of R242 is the model's choice (log entry 9). -/
def Obligations.BusErrorExactlyOnBadAccess : Prop :=
  (∀ (s : State) (addr w : Word) (strobes : BitVec 4) (rest : List HostReq) (c : Bool),
    (c = false ∨ s.pending = none) →
    (step (s.withHost (⟨.read addr strobes, c⟩ :: rest)) = .fault .busError ↔
      (addr.toNat % 4 ≠ 0 ∨ strobes ≠ 0xF)) ∧
    (step (s.withHost (⟨.write addr w strobes, c⟩ :: rest)) = .fault .busError ↔
      (addr.toNat % 4 ≠ 0 ∨ strobes ≠ 0xF))) ∧
  ∀ s : State, step s = .fault .busError →
    ∃ r rest, s.host = r :: rest ∧ r.access ≠ .rst ∧ (r.coreFirst = false ∨ s.pending = none)

/-- R25, R26, R74: a pending command completes in the Core's turn (BUSY 0, DONE 1, PENDING none), or reads a byte of BUF
never written. -/
def Obligations.PendingCommandCompletes : Prop :=
  ∀ (s : State) (w : Word), s.coreHasTurn → s.pending = some w →
    (∃ t, step s = .next t ∧ t.pending = none ∧ t.busy = false ∧ t.done = true) ∨
    (step s = .fault .unwrittenRead ∧
      (decode w = .ok .unpad ∨ ((decode w = .ok .enc ∨ decode w = .ok .dec) ∧ s.ctxValid = true)))

/-- R241, R77, R78: from an idle block, a command's pseudo-instruction, with any number `m` of reads of STATUS that find the
command in progress, takes the block through acceptance and `exec` to the state the command leaves; the `m` reads return
BUSY with the current CTX_VALID, the last one the STATUS the command leaves. How the accesses are listed and how the reads
fall beside the command is the model's choice (log entries 1 and 17). -/
def Obligations.CommandLineRunsToItsStatus : Prop :=
  ∀ (s t : State) (i : Instr) (m : Nat) (c : Bool) (v : Word) (rest : List HostReq), s.busy = false → s.pending = none →
    v.toNat = 1 + 4 * s.ctxValid.toNat →
    exec i { s with
      pending := some (encode i), busy := true, done := false, err := 0, host := hostPoll 0 ++ rest,
      returned := List.replicate m v ++ s.returned, draws := s.draws + m } = .next t →
    Host.Core.run core (m + 3) (s.withHost ((HostLine.command i m c).expand ++ rest)) =
      .next { t with host := rest, returned := t.statusWord :: t.returned, draws := t.draws + 1 }

/-! ## The host bus (20_memory.md; 10_state.md) -/

/-- R58: a read changes nothing of the block, at any word address and at any time. The counter of free values is the
model's (log entry 8). -/
def Obligations.ReadsHaveNoSideEffect : Prop :=
  ∀ (s : State) (addr : Word), addr.toNat % 4 = 0 → ∃ v, s.readsAs addr v

/-- R23: STATUS reads exactly, also while busy, with its reserved bits 0; a write to it is ignored; it is 0 at reset. -/
def Obligations.StatusReadsExactly : Prop :=
  ∀ s : State,
    (∃ v, s.readsAs 0x004 v ∧
      v.toNat = s.busy.toNat + 2 * s.done.toNat + 4 * s.ctxValid.toNat + 16 * s.err.toNat) ∧
    (∀ w, s.writesTo 0x004 w s) ∧
    State.reset.readsAs 0x004 0

/-- R28, R29, R32, R33: what the registers read as while no command is in progress. -/
def Obligations.RegistersReadBack : Prop :=
  ∀ s : State, s.busy = false →
    s.readsAs 0x000 0 ∧ s.readsAs 0x008 s.keyLen ∧ s.readsAs 0x00C s.msgLen ∧
    s.readsAs 0x010 (s.block.left.b3 ++ s.block.left.b2 ++ s.block.left.b1 ++ s.block.left.b0) ∧
    s.readsAs 0x014 (s.block.right.b3 ++ s.block.right.b2 ++ s.block.right.b1 ++ s.block.right.b0)

/-- R29, R32, R33: a write to a data register while no command is in progress stores the word, packed as R52 says, and
changes nothing else. -/
def Obligations.RegisterWritesStore : Prop :=
  ∀ (s : State) (w : Word), s.busy = false →
    s.writesTo 0x008 w { s with keyLen := w } ∧
    s.writesTo 0x00C w { s with msgLen := w } ∧
    s.writesTo 0x010 w { s with block :=
      ⟨⟨w.extractLsb' 0 8, w.extractLsb' 8 8, w.extractLsb' 16 8, w.extractLsb' 24 8⟩, s.block.right⟩ } ∧
    s.writesTo 0x014 w { s with block :=
      ⟨s.block.left, ⟨w.extractLsb' 0 8, w.extractLsb' 8 8, w.extractLsb' 16 8, w.extractLsb' 24 8⟩⟩ }

/-- R38: BUF_SIZE reads exactly at any time, ignores writes, and never changes, including across reset. -/
def Obligations.BufSizeIsConstant : Prop :=
  (∀ (s : State) (w : Word), s.readsAs 0x018 s.bufSize ∧ s.writesTo 0x018 w s) ∧
  ∀ s t : State, step s = .next t → t.bufSize = s.bufSize

/-- R57: a reserved address reads 0 and ignores writes, neither being an error. -/
def Obligations.ReservedAddressesReadZero : Prop :=
  ∀ (s : State) (addr w : Word), addr.toNat % 4 = 0 → s.reservedAddr addr → s.readsAs addr 0 ∧ s.writesTo addr w s

/-- R34: the KEY window reads 0 at any time; a write while no command is in progress sets the four bytes of its word and
leaves the other key bytes. -/
def Obligations.KeyWindowIsWriteOnly : Prop :=
  ∀ (s : State) (q : Nat) (w : Word), q < 8 →
    s.readsAs (BitVec.ofNat 32 (0x020 + 4 * q)) 0 ∧
    (s.busy = false → ∃ k : Key, s.writesTo (BitVec.ofNat 32 (0x020 + 4 * q)) w { s with key := k } ∧
      ∀ i : Fin 32, k[i] = if i.val / 4 = q then w.extractLsb' (8 * (i.val % 4)) 8 else s.key[i])

/-- R55: a written SBOX reads as its bytes, packed; a read of an unwritten one returns some word; writes to the window are
ignored. -/
def Obligations.SboxWindowReadsTheBoxes : Prop :=
  ∀ (s : State) (b : Fin 16) (e : Fin 64),
    (s.busy = false → ∃ v, s.readsAs (BitVec.ofNat 32 (0x1000 + 256 * b.val + 4 * e.val)) v ∧
      (s.sboxWritten = true → ∀ n : Fin 4,
        v.extractLsb' (8 * n.val) 8 = (s.sbox[b])[4 * e.val + n.val]'(show _ < 256 by omega))) ∧
    ∀ w, s.writesTo (BitVec.ofNat 32 (0x1000 + 256 * b.val + 4 * e.val)) w s

/-- R56, R44: a word of the BUF window reads each written byte exactly; a write sets its four bytes, which are written from
then on, and leaves every other byte of BUF and all other state; no word straddles the end of a legal buffer. -/
def Obligations.BufWindowReadsAndWrites : Prop :=
  ∀ (s : State) (q : Nat) (w : Word), s.busy = false → Config.bufBytesLegal s.bufBytes = true → 4 * q < s.bufBytes →
    4 * q + 4 ≤ s.bufBytes ∧
    (∃ v, s.readsAs (BitVec.ofNat 32 (0x10000 + 4 * q)) v ∧
      ∀ n, n < 4 → ∀ x, Memory.read s.buf (4 * q + n) = some x → v.extractLsb' (8 * n) 8 = x) ∧
    ∃ m, s.writesTo (BitVec.ofNat 32 (0x10000 + 4 * q)) w { s with buf := m } ∧
      ∀ a, Memory.read m a =
        if 4 * q ≤ a ∧ a < 4 * q + 4 then some (w.extractLsb' (8 * (a - 4 * q)) 8) else Memory.read s.buf a

/-- R243: while a command is in progress STATUS, BUF_SIZE, CMD, the KEY window and the reserved addresses read their exact
values, in a state that meets the invariant STATUS showing BUSY alone, with CTX_VALID; every other word address reads some
word. -/
def Obligations.ReadsWhileBusy : Prop :=
  ∀ s : State, s.Inv → s.busy = true →
    (∃ v, s.readsAs 0x004 v ∧ v.toNat = 1 + 4 * s.ctxValid.toNat) ∧
    s.readsAs 0x018 s.bufSize ∧ s.readsAs 0x000 0 ∧
    (∀ q, q < 8 → s.readsAs (BitVec.ofNat 32 (0x020 + 4 * q)) 0) ∧
    ∀ addr : Word, addr.toNat % 4 = 0 → (s.reservedAddr addr → s.readsAs addr 0) ∧ ∃ v, s.readsAs addr v

/-! ## Rules of the whole machine -/

/-- R8, R25, R42, R44 and the canonical form of BUF: every step keeps the invariant. -/
def Obligations.EveryStepKeepsTheInvariant : Prop :=
  ∀ s t : State, s.Inv → step s = .next t → t.Inv

/-- The state after reset meets the invariant. It rests on the model's BUF_BYTES of 4096 (log entry 3). -/
def Obligations.ResetMeetsTheInvariant : Prop := State.reset.Inv

/-- R42: while CTX_VALID is 1 every box holds each byte value exactly once. -/
def Obligations.ValidContextIsSixteenPermutations : Prop :=
  ∀ s : State, s.Inv → s.ctxValid = true → ∀ (b : Fin 16) (v : Byte), ∃ e : Fin 256,
    (s.sbox[b])[e] = v ∧ ∀ e' : Fin 256, (s.sbox[b])[e'] = v → e' = e

/-- R24, R30, R43: SBOX and CTX_VALID change only in a Core step on MKCTX or CLRCTX, or at a reset. -/
def Obligations.OnlyMkctxClrctxAndResetTouchTheContext : Prop :=
  ∀ s t : State, step s = .next t → (t.sbox ≠ s.sbox ∨ t.ctxValid ≠ s.ctxValid ∨ t.sboxWritten ≠ s.sboxWritten) →
    (∃ w, s.pending = some w ∧ s.coreHasTurn ∧ (decode w = .ok .mkctx ∨ decode w = .ok .clrctx)) ∨
    ∃ c rest, s.host = ⟨.rst, c⟩ :: rest

/-- R66, R34, R35: no step returns anything to the host that depends on KEY or WK; and two states equal but for KEY and WK
take steps to such states, except where the step is a successful MKCTX, whose SBOX is made from KEY. -/
def Obligations.KeyIsNeverReturned : Prop :=
  ∀ (s : State) (k wk : Key),
    Result.agree (fun t u => t.returned = u.returned) (step s) (step { s with key := k, wk := wk }) ∧
    (¬ (s.coreHasTurn ∧ s.keyLen = 32 ∧ ∃ w, s.pending = some w ∧ decode w = .ok .mkctx) →
      Result.agree (fun t u => u = { t with key := u.key, wk := u.wk }) (step s) (step { s with key := k, wk := wk }))

/-- R35, R36, R37, R45: WK, the generator's registers, RND and BLK_IDX are unobservable: two states that differ in them
alone take steps that differ in them alone. -/
def Obligations.HiddenRegistersAreUnobservable : Prop :=
  ∀ s u : State, s.eraseHidden = u.eraseHidden →
    Result.agree (fun t v => t.eraseHidden = v.eraseHidden) (step s) (step u)

/-- R211: a command stops only with `unwrittenRead`, and only UNPAD, ENC and DEC do; none is refused. -/
def Obligations.OnlyUnpadEncDecCanFault : Prop :=
  ∀ (i : Instr) (s : State),
    (∀ f, exec i s = .fault f → f = .unwrittenRead ∧ (i = .unpad ∨ i = .enc ∨ i = .dec) ∧ ¬ s.messageWritten) ∧
    ∀ r, exec i s ≠ .refused r

/-- R201: the codes each command can complete with. -/
def Obligations.CodesEachCommandCompletesWith : Prop :=
  ∀ (i : Instr) (s t : State), exec i s = .next t →
    match i with
    | .nop => t.err = 0
    | .mkctx => t.err = 0 ∨ t.err = 1
    | .pad => t.err = 0 ∨ t.err = 5
    | .unpad => t.err = 0 ∨ t.err = 5 ∨ t.err = 3
    | .encr _ => t.err = 0 ∨ t.err = 4
    | .decr _ => t.err = 0 ∨ t.err = 4
    | .encb => t.err = 0 ∨ t.err = 4
    | .decb => t.err = 0 ∨ t.err = 4
    | .enc => t.err = 0 ∨ t.err = 4 ∨ t.err = 5
    | .dec => t.err = 0 ∨ t.err = 4 ∨ t.err = 5 ∨ t.err = 2 ∨ t.err = 3
    | .clrctx => t.err = 0

/-- R203: a command that ends with an error has written nothing but the lifecycle fields, except that MKCTX clears KEY and
WK, and that DEC's InvalidPadding leaves the decrypted blocks in BUF and MSG_LEN unchanged (with the unspecified RND and
BLK_IDX of log entry 5). -/
def Obligations.FailedCommandsArePrecise : Prop :=
  ∀ (i : Instr) (s t : State), exec i s = .next t → t.err ≠ 0 →
    (i ≠ .mkctx ∧ (i ≠ .dec ∨ t.err ≠ 3) ∧ t = s.ended t.err) ∨
    (i = .mkctx ∧ t = { s.ended t.err with key := Vector.replicate 32 0, wk := Vector.replicate 32 0 }) ∨
    (i = .dec ∧ t.err = 3 ∧
      t = { s.ended 3 with buf := t.buf, rnd := t.rnd, blkIdx := t.blkIdx, draws := t.draws } ∧
      (∀ n, n < s.msgLen.toNat / 8 → ∃ x, blockAt (Memory.read s.buf) n x ∧
        blockAt (Memory.read t.buf) n (decBlock x s.sbox)) ∧
      ∀ a, s.msgLen.toNat ≤ a → Memory.read t.buf a = Memory.read s.buf a)

/-! ## NOP and CLRCTX (44_control.md) -/

/-- R180: NOP writes the lifecycle fields alone; after reset it leaves STATUS 0x00000002. -/
def Obligations.NopOnlyCompletes : Prop :=
  encode .nop = 0x00000000 ∧
  (∀ s : State, exec .nop s = .next { s with pending := none, busy := false, done := true, err := 0 }) ∧
  ∃ t, step (State.reset.withFetchWord 32 0) = .next t ∧ t.statusWord = 0x00000002

/-- R181: CLRCTX zeroes SBOX and KEY, marks SBOX written, clears CTX_VALID, and touches nothing else. -/
def Obligations.ClrctxDestroysTheContext : Prop :=
  encode .clrctx = 0x0000000A ∧
  ∀ s : State, ∃ t, exec .clrctx s = .next t ∧
    (∀ (b : Fin 16) (e : Fin 256), (t.sbox[b])[e] = 0) ∧ (∀ n : Fin 32, t.key[n] = 0) ∧
    t = { s with
      sbox := t.sbox, key := t.key, sboxWritten := true, ctxValid := false,
      pending := none, busy := false, done := true, err := 0 }

/-! ## The generator and MKCTX (40_sbox_generator.md) -/

/-- R102, R103, R105: the key transform; what a box starts from, and that GenBox shuffles from there over the entry indices
0, 1, ..., 255; and which working key builds which box. -/
def Obligations.WorkingKeyTransforms : Prop :=
  (∀ (wk : Key) (i : Byte) (p : Fin 31),
    (keyStep wk i)[p.val] = wk[p.val + 1]'(Nat.succ_lt_succ p.isLt) ^^^ i) ∧
  (∀ (wk : Key) (i : Byte), (keyStep wk i)[31] = wk[31]) ∧
  (∀ key : Key, workingKey key 0 = key) ∧
  (∀ (key : Key) (n : Nat), workingKey key (n + 1) = keyStep (workingKey key n) (BitVec.ofNat 8 (n + 1))) ∧
  (∀ wk : Key, (startIndex wk).toNat = (wk.toList.map BitVec.toNat).sum % 256) ∧
  (∀ e : Fin 256, identityBox[e].toNat = e.val) ∧
  (∀ wk : Key, genBox wk =
    (((List.range 256).map (BitVec.ofNat 8)).foldl (shuffleStep wk) (startIndex wk, identityBox)).2) ∧
  ∀ (key : Key) (b : Fin 16), (gen key)[b] = genBox (workingKey key b.val)

/-- R104: one iteration of the shuffle: `k` from the old index, the new index, then the swap of two entries. -/
def Obligations.ShuffleIteration : Prop :=
  ∀ (wk : Key) (j i2 : Byte) (t : SBox) (k : Fin 32) (j' : Byte) (t' : SBox),
    k.val = ((t[i2.toNat]'i2.isLt).toNat + (t[j.toNat]'j.isLt).toNat) % 32 →
    shuffleStep wk (j, t) i2 = (j', t') →
    j'.toNat = (j.toNat + wk[k].toNat) % 256 ∧
    t'[i2.toNat]'i2.isLt = t[j'.toNat]'j'.isLt ∧ t'[j'.toNat]'j'.isLt = t[i2.toNat]'i2.isLt ∧
    ∀ e : Fin 256, e.val ≠ i2.toNat → e.val ≠ j'.toNat → t'[e] = t[e]

/-- R109: every box that GenBox produces is a permutation of 0..255. -/
def Obligations.EveryBoxIsAPermutation : Prop :=
  ∀ (wk : Key) (v : Byte), ∃ e : Fin 256, (genBox wk)[e] = v ∧ ∀ e' : Fin 256, (genBox wk)[e'] = v → e' = e

/-- R110: WK[31] never changes, and box 0 of the all-zero key is the identity rotated by one. -/
def Obligations.GeneratorCornerCases : Prop :=
  (∀ (key : Key) (n : Nat), (workingKey key n)[31] = key[31]) ∧
  ∀ e : Fin 256, (gen (Vector.replicate 32 0))[0][e] = BitVec.ofNat 8 (e.val + 255)

/-- R107, R108: MKCTX with KEY_LEN 32 replaces the whole SBOX by the context of KEY, sets CTX_VALID, clears KEY and WK, and
touches nothing else (the generator's registers of R36 are left unspecified, log entry 5). -/
def Obligations.MkctxBuildsTheContext : Prop :=
  ∀ s : State, s.keyLen = 32 → ∃ t, exec .mkctx s = .next t ∧
    (∀ b : Fin 16, t.sbox[b] = genBox (workingKey s.key b.val)) ∧
    (∀ n : Fin 32, t.key[n] = 0) ∧ (∀ n : Fin 32, t.wk[n] = 0) ∧
    t = { s with
      sbox := t.sbox, sboxWritten := true, ctxValid := true, key := t.key, wk := t.wk,
      pending := none, busy := false, done := true, err := 0,
      genI := t.genI, genJ := t.genJ, genI2 := t.genI2, genTable := t.genTable, draws := t.draws }

/-- R106, R108: with any other KEY_LEN, MKCTX completes with InvalidKeyLength, clears KEY and WK, and leaves SBOX,
CTX_VALID and all other state. -/
def Obligations.MkctxRejectsOtherKeyLengths : Prop :=
  encode .mkctx = 0x00000001 ∧ ∀ s : State, s.keyLen ≠ 32 →
    exec .mkctx s = .next { s with
      key := Vector.replicate 32 0, wk := Vector.replicate 32 0,
      pending := none, busy := false, done := true, err := 1 }

/-- R108: MKCTX always clears KEY and WK and keeps KEY_LEN, so a second MKCTX without a rewritten key builds the context of
the all-zero key. -/
def Obligations.MkctxConsumesTheKey : Prop :=
  ∀ s : State, ∃ t, exec .mkctx s = .next t ∧ (∀ n : Fin 32, t.key[n] = 0) ∧ (∀ n : Fin 32, t.wk[n] = 0) ∧
    t.keyLen = s.keyLen ∧
    (s.keyLen = 32 → ∃ u, exec .mkctx t = .next u ∧ u.sbox = gen (Vector.replicate 32 0) ∧ u.ctxValid = true)

/-! ## The padding codec, PAD and UNPAD (41_padding.md) -/

/-- R120, R126: the pad value, its bounds, and the padded length as the next multiple of 8. -/
def Obligations.PadValueBounds : Prop :=
  ∀ l : Nat, padValue l = (if l % 8 = 0 then 8 else 8 - l % 8) ∧ 1 ≤ padValue l ∧ padValue l ≤ 8 ∧
    (l + padValue l) % 8 = 0 ∧ ∀ m, m % 8 = 0 → l < m → l + padValue l ≤ m

/-- R122: PAD appends PadValue(L) bytes of PadValue(L) where the padded message fits, and otherwise completes with
CapacityExceeded and writes nothing else. -/
def Obligations.PadAppendsOrReportsCapacity : Prop :=
  encode .pad = 0x00000002 ∧ ∀ s : State,
    (s.msgLen.toNat + padValue s.msgLen.toNat ≤ s.bufSize.toNat → ∃ t, exec .pad s = .next t ∧
      t.msgLen.toNat = s.msgLen.toNat + padValue s.msgLen.toNat ∧
      (∀ a, Memory.read t.buf a =
        if s.msgLen.toNat ≤ a ∧ a < s.msgLen.toNat + padValue s.msgLen.toNat then
          some (BitVec.ofNat 8 (padValue s.msgLen.toNat))
        else Memory.read s.buf a) ∧
      t = { s with
        buf := t.buf, msgLen := t.msgLen, pending := none, busy := false, done := true, err := 0 }) ∧
    (s.bufSize.toNat < s.msgLen.toNat + padValue s.msgLen.toNat →
      exec .pad s = .next { s with pending := none, busy := false, done := true, err := 5 })

/-- R124, R123: UNPAD's outcomes in the order of its checks; only MSG_LEN changes. -/
def Obligations.UnpadOutcomes : Prop :=
  encode .unpad = 0x00000003 ∧ ∀ s : State,
    if s.bufSize.toNat < s.msgLen.toNat then
      exec .unpad s = .next { s with pending := none, busy := false, done := true, err := 5 }
    else if s.msgLen.toNat = 0 then
      exec .unpad s = .next { s with pending := none, busy := false, done := true, err := 3 }
    else match Memory.read s.buf (s.msgLen.toNat - 1) with
      | none => exec .unpad s = .fault .unwrittenRead
      | some v =>
        if v.toNat = 0 ∨ s.msgLen.toNat < v.toNat then
          exec .unpad s = .next { s with pending := none, busy := false, done := true, err := 3 }
        else exec .unpad s = .next { s with
          msgLen := BitVec.ofNat 32 (s.msgLen.toNat - v.toNat),
          pending := none, busy := false, done := true, err := 0 }

/-- R124: UNPAD completes with Success and the shorter length when the last byte was written and is in 1..L. -/
def Obligations.UnpadTakesOffTheLastByte : Prop :=
  ∀ (s : State) (v : Byte), s.msgLen.toNat ≤ s.bufSize.toNat →
    Memory.read s.buf (s.msgLen.toNat - 1) = some v → 1 ≤ v.toNat → v.toNat ≤ s.msgLen.toNat →
    exec .unpad s = .next { s with
      msgLen := BitVec.ofNat 32 (s.msgLen.toNat - v.toNat),
      pending := none, busy := false, done := true, err := 0 }

/-- R125: the last byte of a padded message gives its length back; PAD followed by UNPAD restores MSG_LEN and leaves the
message, provided PAD succeeded. -/
def Obligations.PadThenUnpadRestores : Prop :=
  (∀ l : Nat, unpadLen (l + padValue l) (BitVec.ofNat 8 (padValue l)) = some l) ∧
  ∀ s t : State, exec .pad s = .next t → t.err = 0 →
    ∃ u, exec .unpad t = .next u ∧ u.err = 0 ∧ u.msgLen = s.msgLen ∧
      ∀ a, a < s.msgLen.toNat → Memory.read u.buf a = Memory.read s.buf a

/-! ## The round engine, ENCR and DECR (42_feistel_round.md) -/

/-- R144: a decryption round undoes an encryption round with the same table, and the other way round. -/
def Obligations.RoundsInvertEachOther : Prop :=
  ∀ (x : Block) (t : SBox), decRound (encRound x t) t = x ∧ encRound (decRound x t) t = x

/-- R145, R142, R140: ENCR r with a context, its result written out; RND is left unspecified (log entry 5). -/
def Obligations.EncrAppliesOneRound : Prop :=
  ∀ (s : State) (r : BitVec 4) (s0 s1 s2 s3 : Byte), s.ctxValid = true →
    s0 = s.block.right.b0 → s1 = s0 + s.block.right.b1 → s2 = s1 + s.block.right.b2 → s3 = s2 + s.block.right.b3 →
    ∃ t, exec (.encr r) s = .next t ∧
      t.block.left = s.block.right ∧
      t.block.right.b0 = s.block.left.b0 ^^^ (s.sbox[r.toNat]'r.isLt)[s3.toNat]'s3.isLt ∧
      t.block.right.b1 = s.block.left.b1 ^^^ (s.sbox[r.toNat]'r.isLt)[s2.toNat]'s2.isLt ∧
      t.block.right.b2 = s.block.left.b2 ^^^ (s.sbox[r.toNat]'r.isLt)[s1.toNat]'s1.isLt ∧
      t.block.right.b3 = s.block.left.b3 ^^^ (s.sbox[r.toNat]'r.isLt)[s0.toNat]'s0.isLt ∧
      t = { s.ended 0 with block := t.block, rnd := t.rnd, draws := t.draws }

/-- R146, R143, R140: DECR r with a context, its result written out; RND is left unspecified (log entry 5). -/
def Obligations.DecrAppliesOneRound : Prop :=
  ∀ (s : State) (r : BitVec 4) (s0 s1 s2 s3 : Byte), s.ctxValid = true →
    s0 = s.block.left.b0 → s1 = s0 + s.block.left.b1 → s2 = s1 + s.block.left.b2 → s3 = s2 + s.block.left.b3 →
    ∃ t, exec (.decr r) s = .next t ∧
      t.block.right = s.block.left ∧
      t.block.left.b0 = s.block.right.b0 ^^^ (s.sbox[r.toNat]'r.isLt)[s3.toNat]'s3.isLt ∧
      t.block.left.b1 = s.block.right.b1 ^^^ (s.sbox[r.toNat]'r.isLt)[s2.toNat]'s2.isLt ∧
      t.block.left.b2 = s.block.right.b2 ^^^ (s.sbox[r.toNat]'r.isLt)[s1.toNat]'s1.isLt ∧
      t.block.left.b3 = s.block.right.b3 ^^^ (s.sbox[r.toNat]'r.isLt)[s0.toNat]'s0.isLt ∧
      t = { s.ended 0 with block := t.block, rnd := t.rnd, draws := t.draws }

/-- R244: the six cipher commands without a context complete with NoContext and change nothing else. -/
def Obligations.CipherCommandsNeedAContext : Prop :=
  ∀ (s : State) (i : Instr), s.ctxValid = false →
    (i = .encb ∨ i = .decb ∨ i = .enc ∨ i = .dec ∨ ∃ r, i = .encr r ∨ i = .decr r) →
    exec i s = .next { s with pending := none, busy := false, done := true, err := 4 }

/-! ## The block driver (43_block_driver.md) -/

/-- R162, R164: ENCB and DECB with a context write BLOCK, and nothing else but the lifecycle and RND, which is
left unspecified (log entry 5). -/
def Obligations.BlockCommandsTransformBlock : Prop :=
  ∀ s : State, s.ctxValid = true →
    (∃ t, exec .encb s = .next t ∧ t.block = encBlock s.block s.sbox ∧
      t = { s.ended 0 with block := t.block, rnd := t.rnd, draws := t.draws }) ∧
    ∃ t, exec .decb s = .next t ∧ t.block = decBlock s.block s.sbox ∧
      t = { s.ended 0 with block := t.block, rnd := t.rnd, draws := t.draws }

/-- R160, R161, R162, R164: ENCB equals ENCR 0 to ENCR 15 in that order, and DECB equals DECR 15 down to DECR 0: the same
state but for RND, which is left unspecified, and the counter of free values (log entry 5). -/
def Obligations.BlockCommandEqualsItsRounds : Prop :=
  ∀ s : State, s.ctxValid = true →
    (∃ t u, execAll ((List.range 16).map fun r => .encr (BitVec.ofNat 4 r)) s = some t ∧ exec .encb s = .next u ∧
      t = { u with rnd := t.rnd, draws := t.draws }) ∧
    ∃ t u, execAll ((List.range 16).reverse.map fun r => .decr (BitVec.ofNat 4 r)) s = some t ∧
      exec .decb s = .next u ∧ t = { u with rnd := t.rnd, draws := t.draws }

/-- R163: block decryption undoes block encryption, for any 16 tables. -/
def Obligations.BlockInversion : Prop :=
  ∀ (x : Block) (box : Boxes), decBlock (encBlock x box) box = x

/-- R166, R165: ENC with a context, where the padded message fits and every byte of the message was written: each block of
the padded message is encrypted in its place, MSG_LEN is the padded length, and no other byte of BUF and no other state
changes but the lifecycle and RND and BLK_IDX, which are left unspecified (log entry 5). -/
def Obligations.EncEncryptsThePaddedMessage : Prop :=
  ∀ s : State, s.ctxValid = true → s.msgLen.toNat + padValue s.msgLen.toNat ≤ s.bufSize.toNat → s.messageWritten →
    ∃ t, exec .enc s = .next t ∧
      t.msgLen.toNat = s.msgLen.toNat + padValue s.msgLen.toNat ∧
      (∀ n, n < (s.msgLen.toNat + padValue s.msgLen.toNat) / 8 →
        ∃ x, blockAt s.paddedByte n x ∧ blockAt (Memory.read t.buf) n (encBlock x s.sbox)) ∧
      (∀ a, s.msgLen.toNat + padValue s.msgLen.toNat ≤ a → Memory.read t.buf a = Memory.read s.buf a) ∧
      t = { s.ended 0 with
        buf := t.buf, msgLen := t.msgLen, rnd := t.rnd, blkIdx := t.blkIdx, draws := t.draws }

/-- R166, R211: ENC with a context where the padded message does not fit completes with CapacityExceeded and writes nothing
else; where it fits and a byte of the message was never written, it stops with `unwrittenRead`. -/
def Obligations.EncStops : Prop :=
  ∀ s : State, s.ctxValid = true →
    (s.bufSize.toNat < s.msgLen.toNat + padValue s.msgLen.toNat →
      exec .enc s = .next { s with pending := none, busy := false, done := true, err := 5 }) ∧
    (s.msgLen.toNat + padValue s.msgLen.toNat ≤ s.bufSize.toNat → ¬ s.messageWritten →
      exec .enc s = .fault .unwrittenRead)

/-- R167: after a successful ENC, MSG_LEN is L + PadValue(L), the smallest multiple of 8 above L. -/
def Obligations.CiphertextLength : Prop :=
  ∀ s t : State, exec .enc s = .next t → t.err = 0 →
    t.msgLen.toNat = s.msgLen.toNat + padValue s.msgLen.toNat ∧ s.msgLen.toNat < t.msgLen.toNat ∧
    t.msgLen.toNat % 8 = 0 ∧ ∀ m, m % 8 = 0 → s.msgLen.toNat < m → t.msgLen.toNat ≤ m

/-- R168, R165: DEC with a context, of a written message whose length is a positive multiple of 8 within BUF: each block is
decrypted in its place; then, by the last byte `v` of the result, MSG_LEN becomes L - v, or the command completes with
InvalidPadding and MSG_LEN stays; no other byte of BUF and no other state changes but RND and BLK_IDX, which are left
unspecified (log entry 5). -/
def Obligations.DecDecryptsAndUnpads : Prop :=
  ∀ s : State, s.ctxValid = true → s.msgLen.toNat ≤ s.bufSize.toNat → s.msgLen.toNat ≠ 0 → s.msgLen.toNat % 8 = 0 →
    s.messageWritten →
    ∃ t v, exec .dec s = .next t ∧
      (∀ n, n < s.msgLen.toNat / 8 →
        ∃ x, blockAt (Memory.read s.buf) n x ∧ blockAt (Memory.read t.buf) n (decBlock x s.sbox)) ∧
      (∀ a, s.msgLen.toNat ≤ a → Memory.read t.buf a = Memory.read s.buf a) ∧
      Memory.read t.buf (s.msgLen.toNat - 1) = some v ∧
      (if v.toNat = 0 ∨ s.msgLen.toNat < v.toNat then t.err = 3 ∧ t.msgLen = s.msgLen
        else t.err = 0 ∧ t.msgLen.toNat = s.msgLen.toNat - v.toNat) ∧
      t = { s.ended t.err with
        buf := t.buf, msgLen := t.msgLen, rnd := t.rnd, blkIdx := t.blkIdx, draws := t.draws }

/-- R168, R205, R211: DEC's other outcomes, in the order of its checks. -/
def Obligations.DecStops : Prop :=
  ∀ s : State,
    if s.ctxValid = false then exec .dec s = .next (s.ended 4)
    else if s.bufSize.toNat < s.msgLen.toNat then exec .dec s = .next (s.ended 5)
    else if s.msgLen.toNat = 0 ∨ s.msgLen.toNat % 8 ≠ 0 then exec .dec s = .next (s.ended 2)
    else (exec .dec s = .fault .unwrittenRead ↔ ¬ s.messageWritten)

/-- R169: MKCTX, ENC and DEC restore every message that fits, and the same message under the same key always gives the same
ciphertext. -/
def Obligations.EncryptThenDecryptRestores : Prop :=
  (∀ s : State, s.keyLen = 32 → s.msgLen.toNat + padValue s.msgLen.toNat ≤ s.bufSize.toNat → s.messageWritten →
    ∃ u, execAll [.mkctx, .enc, .dec] s = some u ∧ u.err = 0 ∧ u.msgLen = s.msgLen ∧
      ∀ a, a < s.msgLen.toNat → Memory.read u.buf a = Memory.read s.buf a) ∧
  ∀ s s' t t' : State, s.keyLen = 32 → s'.keyLen = 32 → s.key = s'.key → s.msgLen = s'.msgLen →
    (∀ a, a < s.msgLen.toNat → Memory.read s.buf a = Memory.read s'.buf a) →
    execAll [.mkctx, .enc] s = some t → execAll [.mkctx, .enc] s' = some t' → t.err = 0 → t'.err = 0 →
    t.msgLen = t'.msgLen ∧ ∀ a, a < t.msgLen.toNat → Memory.read t.buf a = Memory.read t'.buf a

/-- R170: changing the bytes of ciphertext block `k` changes only block `k` of DEC's result; unless it is the last block,
the code and the length stay too. -/
def Obligations.BlastRadiusIsOneBlock : Prop :=
  ∀ (s t t' : State) (m : List Host.Cell) (k : Nat),
    (∀ a, a / 8 ≠ k → Memory.read m a = Memory.read s.buf a) →
    exec .dec s = .next t → exec .dec { s with buf := m } = .next t' →
    (∀ a, a / 8 ≠ k → Memory.read t'.buf a = Memory.read t.buf a) ∧
    (k + 1 ≠ s.msgLen.toNat / 8 → t'.err = t.err ∧ t'.msgLen = t.msgLen)

/-! ## The generator's loop (40_sbox_generator.md R104) -/

/-- R103, R104: GenBox is the whole loop written out. From the index that is the sum of the working key modulo 256 and the
identity table, for the entry indices 0, 1, ..., 255 in that order: `k` from the entries at the entry index and at the old
index, the new index, then the swap of the entries at the entry index and the new index; the box is the table after the
last. -/
def Obligations.GenBoxIsTheShuffleLoop : Prop :=
  ∀ wk : Key, ∃ (j : Nat → Byte) (t : Nat → SBox),
    (j 0).toNat = (wk.toList.map BitVec.toNat).sum % 256 ∧ (∀ e : Fin 256, (t 0)[e].toNat = e.val) ∧
    (∀ i2 : Fin 256, ∃ k : Fin 32,
      k.val = ((t i2.val)[i2].toNat + ((t i2.val)[(j i2.val).toNat]'(j i2.val).isLt).toNat) % 32 ∧
      (j (i2.val + 1)).toNat = ((j i2.val).toNat + wk[k].toNat) % 256 ∧
      (t (i2.val + 1))[i2] = (t i2.val)[(j (i2.val + 1)).toNat]'(j (i2.val + 1)).isLt ∧
      (t (i2.val + 1))[(j (i2.val + 1)).toNat]'(j (i2.val + 1)).isLt = (t i2.val)[i2] ∧
      ∀ e : Fin 256, e ≠ i2 → e.val ≠ (j (i2.val + 1)).toNat → (t (i2.val + 1))[e] = (t i2.val)[e]) ∧
    t 256 = genBox wk

end
end

