-- ==== Sys2Proof/Laws/State.lean ====
section
/-! SUPPORT. What each named update of State does to each field, one lemma per field per update, so that no proof unfolds a
record update. -/

namespace Sys2Proof.Machine

@[simp] theorem State.withHost_busy (rest : List HostReq) (s : State) : (State.withHost rest s).busy = s.busy := rfl
@[simp] theorem State.withHost_done (rest : List HostReq) (s : State) : (State.withHost rest s).done = s.done := rfl
@[simp] theorem State.withHost_ctxValid (rest : List HostReq) (s : State) : (State.withHost rest s).ctxValid = s.ctxValid := rfl
@[simp] theorem State.withHost_err (rest : List HostReq) (s : State) : (State.withHost rest s).err = s.err := rfl
@[simp] theorem State.withHost_pending (rest : List HostReq) (s : State) : (State.withHost rest s).pending = s.pending := rfl
@[simp] theorem State.withHost_keyLen (rest : List HostReq) (s : State) : (State.withHost rest s).keyLen = s.keyLen := rfl
@[simp] theorem State.withHost_msgLen (rest : List HostReq) (s : State) : (State.withHost rest s).msgLen = s.msgLen := rfl
@[simp] theorem State.withHost_block (rest : List HostReq) (s : State) : (State.withHost rest s).block = s.block := rfl
@[simp] theorem State.withHost_bufSize (rest : List HostReq) (s : State) : (State.withHost rest s).bufSize = s.bufSize := rfl
@[simp] theorem State.withHost_key (rest : List HostReq) (s : State) : (State.withHost rest s).key = s.key := rfl
@[simp] theorem State.withHost_sbox (rest : List HostReq) (s : State) : (State.withHost rest s).sbox = s.sbox := rfl
@[simp] theorem State.withHost_sboxWritten (rest : List HostReq) (s : State) : (State.withHost rest s).sboxWritten = s.sboxWritten := rfl
@[simp] theorem State.withHost_buf (rest : List HostReq) (s : State) : (State.withHost rest s).buf = s.buf := rfl
@[simp] theorem State.withHost_wk (rest : List HostReq) (s : State) : (State.withHost rest s).wk = s.wk := rfl
@[simp] theorem State.withHost_genI (rest : List HostReq) (s : State) : (State.withHost rest s).genI = s.genI := rfl
@[simp] theorem State.withHost_genJ (rest : List HostReq) (s : State) : (State.withHost rest s).genJ = s.genJ := rfl
@[simp] theorem State.withHost_genI2 (rest : List HostReq) (s : State) : (State.withHost rest s).genI2 = s.genI2 := rfl
@[simp] theorem State.withHost_genTable (rest : List HostReq) (s : State) : (State.withHost rest s).genTable = s.genTable := rfl
@[simp] theorem State.withHost_rnd (rest : List HostReq) (s : State) : (State.withHost rest s).rnd = s.rnd := rfl
@[simp] theorem State.withHost_blkIdx (rest : List HostReq) (s : State) : (State.withHost rest s).blkIdx = s.blkIdx := rfl
@[simp] theorem State.withHost_host (rest : List HostReq) (s : State) : (State.withHost rest s).host = rest := rfl
@[simp] theorem State.withHost_returned (rest : List HostReq) (s : State) : (State.withHost rest s).returned = s.returned := rfl
@[simp] theorem State.withHost_draws (rest : List HostReq) (s : State) : (State.withHost rest s).draws = s.draws := rfl

@[simp] theorem State.accept_busy (w : Word) (s : State) : (State.accept w s).busy = true := rfl
@[simp] theorem State.accept_done (w : Word) (s : State) : (State.accept w s).done = false := rfl
@[simp] theorem State.accept_ctxValid (w : Word) (s : State) : (State.accept w s).ctxValid = s.ctxValid := rfl
@[simp] theorem State.accept_err (w : Word) (s : State) : (State.accept w s).err = 0 := rfl
@[simp] theorem State.accept_pending (w : Word) (s : State) : (State.accept w s).pending = some w := rfl
@[simp] theorem State.accept_keyLen (w : Word) (s : State) : (State.accept w s).keyLen = s.keyLen := rfl
@[simp] theorem State.accept_msgLen (w : Word) (s : State) : (State.accept w s).msgLen = s.msgLen := rfl
@[simp] theorem State.accept_block (w : Word) (s : State) : (State.accept w s).block = s.block := rfl
@[simp] theorem State.accept_bufSize (w : Word) (s : State) : (State.accept w s).bufSize = s.bufSize := rfl
@[simp] theorem State.accept_key (w : Word) (s : State) : (State.accept w s).key = s.key := rfl
@[simp] theorem State.accept_sbox (w : Word) (s : State) : (State.accept w s).sbox = s.sbox := rfl
@[simp] theorem State.accept_sboxWritten (w : Word) (s : State) : (State.accept w s).sboxWritten = s.sboxWritten := rfl
@[simp] theorem State.accept_buf (w : Word) (s : State) : (State.accept w s).buf = s.buf := rfl
@[simp] theorem State.accept_wk (w : Word) (s : State) : (State.accept w s).wk = s.wk := rfl
@[simp] theorem State.accept_genI (w : Word) (s : State) : (State.accept w s).genI = s.genI := rfl
@[simp] theorem State.accept_genJ (w : Word) (s : State) : (State.accept w s).genJ = s.genJ := rfl
@[simp] theorem State.accept_genI2 (w : Word) (s : State) : (State.accept w s).genI2 = s.genI2 := rfl
@[simp] theorem State.accept_genTable (w : Word) (s : State) : (State.accept w s).genTable = s.genTable := rfl
@[simp] theorem State.accept_rnd (w : Word) (s : State) : (State.accept w s).rnd = s.rnd := rfl
@[simp] theorem State.accept_blkIdx (w : Word) (s : State) : (State.accept w s).blkIdx = s.blkIdx := rfl
@[simp] theorem State.accept_host (w : Word) (s : State) : (State.accept w s).host = s.host := rfl
@[simp] theorem State.accept_returned (w : Word) (s : State) : (State.accept w s).returned = s.returned := rfl
@[simp] theorem State.accept_draws (w : Word) (s : State) : (State.accept w s).draws = s.draws := rfl

@[simp] theorem State.complete_busy (c : StatusCode) (s : State) : (State.complete c s).busy = false := rfl
@[simp] theorem State.complete_done (c : StatusCode) (s : State) : (State.complete c s).done = true := rfl
@[simp] theorem State.complete_ctxValid (c : StatusCode) (s : State) : (State.complete c s).ctxValid = s.ctxValid := rfl
@[simp] theorem State.complete_err (c : StatusCode) (s : State) : (State.complete c s).err = c.code := rfl
@[simp] theorem State.complete_pending (c : StatusCode) (s : State) : (State.complete c s).pending = none := rfl
@[simp] theorem State.complete_keyLen (c : StatusCode) (s : State) : (State.complete c s).keyLen = s.keyLen := rfl
@[simp] theorem State.complete_msgLen (c : StatusCode) (s : State) : (State.complete c s).msgLen = s.msgLen := rfl
@[simp] theorem State.complete_block (c : StatusCode) (s : State) : (State.complete c s).block = s.block := rfl
@[simp] theorem State.complete_bufSize (c : StatusCode) (s : State) : (State.complete c s).bufSize = s.bufSize := rfl
@[simp] theorem State.complete_key (c : StatusCode) (s : State) : (State.complete c s).key = s.key := rfl
@[simp] theorem State.complete_sbox (c : StatusCode) (s : State) : (State.complete c s).sbox = s.sbox := rfl
@[simp] theorem State.complete_sboxWritten (c : StatusCode) (s : State) : (State.complete c s).sboxWritten = s.sboxWritten := rfl
@[simp] theorem State.complete_buf (c : StatusCode) (s : State) : (State.complete c s).buf = s.buf := rfl
@[simp] theorem State.complete_wk (c : StatusCode) (s : State) : (State.complete c s).wk = s.wk := rfl
@[simp] theorem State.complete_genI (c : StatusCode) (s : State) : (State.complete c s).genI = s.genI := rfl
@[simp] theorem State.complete_genJ (c : StatusCode) (s : State) : (State.complete c s).genJ = s.genJ := rfl
@[simp] theorem State.complete_genI2 (c : StatusCode) (s : State) : (State.complete c s).genI2 = s.genI2 := rfl
@[simp] theorem State.complete_genTable (c : StatusCode) (s : State) : (State.complete c s).genTable = s.genTable := rfl
@[simp] theorem State.complete_rnd (c : StatusCode) (s : State) : (State.complete c s).rnd = s.rnd := rfl
@[simp] theorem State.complete_blkIdx (c : StatusCode) (s : State) : (State.complete c s).blkIdx = s.blkIdx := rfl
@[simp] theorem State.complete_host (c : StatusCode) (s : State) : (State.complete c s).host = s.host := rfl
@[simp] theorem State.complete_returned (c : StatusCode) (s : State) : (State.complete c s).returned = s.returned := rfl
@[simp] theorem State.complete_draws (c : StatusCode) (s : State) : (State.complete c s).draws = s.draws := rfl

@[simp] theorem State.leaveGenerator_busy (s : State) : (State.leaveGenerator s).busy = s.busy := rfl
@[simp] theorem State.leaveGenerator_done (s : State) : (State.leaveGenerator s).done = s.done := rfl
@[simp] theorem State.leaveGenerator_ctxValid (s : State) : (State.leaveGenerator s).ctxValid = s.ctxValid := rfl
@[simp] theorem State.leaveGenerator_err (s : State) : (State.leaveGenerator s).err = s.err := rfl
@[simp] theorem State.leaveGenerator_pending (s : State) : (State.leaveGenerator s).pending = s.pending := rfl
@[simp] theorem State.leaveGenerator_keyLen (s : State) : (State.leaveGenerator s).keyLen = s.keyLen := rfl
@[simp] theorem State.leaveGenerator_msgLen (s : State) : (State.leaveGenerator s).msgLen = s.msgLen := rfl
@[simp] theorem State.leaveGenerator_block (s : State) : (State.leaveGenerator s).block = s.block := rfl
@[simp] theorem State.leaveGenerator_bufSize (s : State) : (State.leaveGenerator s).bufSize = s.bufSize := rfl
@[simp] theorem State.leaveGenerator_key (s : State) : (State.leaveGenerator s).key = s.key := rfl
@[simp] theorem State.leaveGenerator_sbox (s : State) : (State.leaveGenerator s).sbox = s.sbox := rfl
@[simp] theorem State.leaveGenerator_sboxWritten (s : State) : (State.leaveGenerator s).sboxWritten = s.sboxWritten := rfl
@[simp] theorem State.leaveGenerator_buf (s : State) : (State.leaveGenerator s).buf = s.buf := rfl
@[simp] theorem State.leaveGenerator_wk (s : State) : (State.leaveGenerator s).wk = s.wk := rfl
@[simp] theorem State.leaveGenerator_genI (s : State) : (State.leaveGenerator s).genI = Config.freeGenI s.draws := rfl
@[simp] theorem State.leaveGenerator_genJ (s : State) : (State.leaveGenerator s).genJ = Config.freeGenJ s.draws := rfl
@[simp] theorem State.leaveGenerator_genI2 (s : State) : (State.leaveGenerator s).genI2 = Config.freeGenI2 s.draws := rfl
@[simp] theorem State.leaveGenerator_genTable (s : State) : (State.leaveGenerator s).genTable = Config.freeGenTable s.draws := rfl
@[simp] theorem State.leaveGenerator_rnd (s : State) : (State.leaveGenerator s).rnd = s.rnd := rfl
@[simp] theorem State.leaveGenerator_blkIdx (s : State) : (State.leaveGenerator s).blkIdx = s.blkIdx := rfl
@[simp] theorem State.leaveGenerator_host (s : State) : (State.leaveGenerator s).host = s.host := rfl
@[simp] theorem State.leaveGenerator_returned (s : State) : (State.leaveGenerator s).returned = s.returned := rfl
@[simp] theorem State.leaveGenerator_draws (s : State) : (State.leaveGenerator s).draws = s.draws + 1 := rfl

@[simp] theorem State.leaveRounds_busy (s : State) : (State.leaveRounds s).busy = s.busy := rfl
@[simp] theorem State.leaveRounds_done (s : State) : (State.leaveRounds s).done = s.done := rfl
@[simp] theorem State.leaveRounds_ctxValid (s : State) : (State.leaveRounds s).ctxValid = s.ctxValid := rfl
@[simp] theorem State.leaveRounds_err (s : State) : (State.leaveRounds s).err = s.err := rfl
@[simp] theorem State.leaveRounds_pending (s : State) : (State.leaveRounds s).pending = s.pending := rfl
@[simp] theorem State.leaveRounds_keyLen (s : State) : (State.leaveRounds s).keyLen = s.keyLen := rfl
@[simp] theorem State.leaveRounds_msgLen (s : State) : (State.leaveRounds s).msgLen = s.msgLen := rfl
@[simp] theorem State.leaveRounds_block (s : State) : (State.leaveRounds s).block = s.block := rfl
@[simp] theorem State.leaveRounds_bufSize (s : State) : (State.leaveRounds s).bufSize = s.bufSize := rfl
@[simp] theorem State.leaveRounds_key (s : State) : (State.leaveRounds s).key = s.key := rfl
@[simp] theorem State.leaveRounds_sbox (s : State) : (State.leaveRounds s).sbox = s.sbox := rfl
@[simp] theorem State.leaveRounds_sboxWritten (s : State) : (State.leaveRounds s).sboxWritten = s.sboxWritten := rfl
@[simp] theorem State.leaveRounds_buf (s : State) : (State.leaveRounds s).buf = s.buf := rfl
@[simp] theorem State.leaveRounds_wk (s : State) : (State.leaveRounds s).wk = s.wk := rfl
@[simp] theorem State.leaveRounds_genI (s : State) : (State.leaveRounds s).genI = s.genI := rfl
@[simp] theorem State.leaveRounds_genJ (s : State) : (State.leaveRounds s).genJ = s.genJ := rfl
@[simp] theorem State.leaveRounds_genI2 (s : State) : (State.leaveRounds s).genI2 = s.genI2 := rfl
@[simp] theorem State.leaveRounds_genTable (s : State) : (State.leaveRounds s).genTable = s.genTable := rfl
@[simp] theorem State.leaveRounds_rnd (s : State) : (State.leaveRounds s).rnd = Config.freeRnd s.draws := rfl
@[simp] theorem State.leaveRounds_blkIdx (s : State) : (State.leaveRounds s).blkIdx = s.blkIdx := rfl
@[simp] theorem State.leaveRounds_host (s : State) : (State.leaveRounds s).host = s.host := rfl
@[simp] theorem State.leaveRounds_returned (s : State) : (State.leaveRounds s).returned = s.returned := rfl
@[simp] theorem State.leaveRounds_draws (s : State) : (State.leaveRounds s).draws = s.draws + 1 := rfl

@[simp] theorem State.leaveBlocks_busy (s : State) : (State.leaveBlocks s).busy = s.busy := rfl
@[simp] theorem State.leaveBlocks_done (s : State) : (State.leaveBlocks s).done = s.done := rfl
@[simp] theorem State.leaveBlocks_ctxValid (s : State) : (State.leaveBlocks s).ctxValid = s.ctxValid := rfl
@[simp] theorem State.leaveBlocks_err (s : State) : (State.leaveBlocks s).err = s.err := rfl
@[simp] theorem State.leaveBlocks_pending (s : State) : (State.leaveBlocks s).pending = s.pending := rfl
@[simp] theorem State.leaveBlocks_keyLen (s : State) : (State.leaveBlocks s).keyLen = s.keyLen := rfl
@[simp] theorem State.leaveBlocks_msgLen (s : State) : (State.leaveBlocks s).msgLen = s.msgLen := rfl
@[simp] theorem State.leaveBlocks_block (s : State) : (State.leaveBlocks s).block = s.block := rfl
@[simp] theorem State.leaveBlocks_bufSize (s : State) : (State.leaveBlocks s).bufSize = s.bufSize := rfl
@[simp] theorem State.leaveBlocks_key (s : State) : (State.leaveBlocks s).key = s.key := rfl
@[simp] theorem State.leaveBlocks_sbox (s : State) : (State.leaveBlocks s).sbox = s.sbox := rfl
@[simp] theorem State.leaveBlocks_sboxWritten (s : State) : (State.leaveBlocks s).sboxWritten = s.sboxWritten := rfl
@[simp] theorem State.leaveBlocks_buf (s : State) : (State.leaveBlocks s).buf = s.buf := rfl
@[simp] theorem State.leaveBlocks_wk (s : State) : (State.leaveBlocks s).wk = s.wk := rfl
@[simp] theorem State.leaveBlocks_genI (s : State) : (State.leaveBlocks s).genI = s.genI := rfl
@[simp] theorem State.leaveBlocks_genJ (s : State) : (State.leaveBlocks s).genJ = s.genJ := rfl
@[simp] theorem State.leaveBlocks_genI2 (s : State) : (State.leaveBlocks s).genI2 = s.genI2 := rfl
@[simp] theorem State.leaveBlocks_genTable (s : State) : (State.leaveBlocks s).genTable = s.genTable := rfl
@[simp] theorem State.leaveBlocks_rnd (s : State) : (State.leaveBlocks s).rnd = s.rnd := rfl
@[simp] theorem State.leaveBlocks_blkIdx (s : State) : (State.leaveBlocks s).blkIdx = Config.freeBlkIdx s.draws := rfl
@[simp] theorem State.leaveBlocks_host (s : State) : (State.leaveBlocks s).host = s.host := rfl
@[simp] theorem State.leaveBlocks_returned (s : State) : (State.leaveBlocks s).returned = s.returned := rfl
@[simp] theorem State.leaveBlocks_draws (s : State) : (State.leaveBlocks s).draws = s.draws + 1 := rfl

@[simp] theorem State.clearKey_busy (s : State) : (State.clearKey s).busy = s.busy := rfl
@[simp] theorem State.clearKey_done (s : State) : (State.clearKey s).done = s.done := rfl
@[simp] theorem State.clearKey_ctxValid (s : State) : (State.clearKey s).ctxValid = s.ctxValid := rfl
@[simp] theorem State.clearKey_err (s : State) : (State.clearKey s).err = s.err := rfl
@[simp] theorem State.clearKey_pending (s : State) : (State.clearKey s).pending = s.pending := rfl
@[simp] theorem State.clearKey_keyLen (s : State) : (State.clearKey s).keyLen = s.keyLen := rfl
@[simp] theorem State.clearKey_msgLen (s : State) : (State.clearKey s).msgLen = s.msgLen := rfl
@[simp] theorem State.clearKey_block (s : State) : (State.clearKey s).block = s.block := rfl
@[simp] theorem State.clearKey_bufSize (s : State) : (State.clearKey s).bufSize = s.bufSize := rfl
@[simp] theorem State.clearKey_key (s : State) : (State.clearKey s).key = zeroKey := rfl
@[simp] theorem State.clearKey_sbox (s : State) : (State.clearKey s).sbox = s.sbox := rfl
@[simp] theorem State.clearKey_sboxWritten (s : State) : (State.clearKey s).sboxWritten = s.sboxWritten := rfl
@[simp] theorem State.clearKey_buf (s : State) : (State.clearKey s).buf = s.buf := rfl
@[simp] theorem State.clearKey_wk (s : State) : (State.clearKey s).wk = zeroKey := rfl
@[simp] theorem State.clearKey_genI (s : State) : (State.clearKey s).genI = s.genI := rfl
@[simp] theorem State.clearKey_genJ (s : State) : (State.clearKey s).genJ = s.genJ := rfl
@[simp] theorem State.clearKey_genI2 (s : State) : (State.clearKey s).genI2 = s.genI2 := rfl
@[simp] theorem State.clearKey_genTable (s : State) : (State.clearKey s).genTable = s.genTable := rfl
@[simp] theorem State.clearKey_rnd (s : State) : (State.clearKey s).rnd = s.rnd := rfl
@[simp] theorem State.clearKey_blkIdx (s : State) : (State.clearKey s).blkIdx = s.blkIdx := rfl
@[simp] theorem State.clearKey_host (s : State) : (State.clearKey s).host = s.host := rfl
@[simp] theorem State.clearKey_returned (s : State) : (State.clearKey s).returned = s.returned := rfl
@[simp] theorem State.clearKey_draws (s : State) : (State.clearKey s).draws = s.draws := rfl

@[simp] theorem State.setLength_busy (n : Nat) (s : State) : (State.setLength n s).busy = s.busy := rfl
@[simp] theorem State.setLength_done (n : Nat) (s : State) : (State.setLength n s).done = s.done := rfl
@[simp] theorem State.setLength_ctxValid (n : Nat) (s : State) : (State.setLength n s).ctxValid = s.ctxValid := rfl
@[simp] theorem State.setLength_err (n : Nat) (s : State) : (State.setLength n s).err = s.err := rfl
@[simp] theorem State.setLength_pending (n : Nat) (s : State) : (State.setLength n s).pending = s.pending := rfl
@[simp] theorem State.setLength_keyLen (n : Nat) (s : State) : (State.setLength n s).keyLen = s.keyLen := rfl
@[simp] theorem State.setLength_msgLen (n : Nat) (s : State) : (State.setLength n s).msgLen = BitVec.ofNat 32 n := rfl
@[simp] theorem State.setLength_block (n : Nat) (s : State) : (State.setLength n s).block = s.block := rfl
@[simp] theorem State.setLength_bufSize (n : Nat) (s : State) : (State.setLength n s).bufSize = s.bufSize := rfl
@[simp] theorem State.setLength_key (n : Nat) (s : State) : (State.setLength n s).key = s.key := rfl
@[simp] theorem State.setLength_sbox (n : Nat) (s : State) : (State.setLength n s).sbox = s.sbox := rfl
@[simp] theorem State.setLength_sboxWritten (n : Nat) (s : State) : (State.setLength n s).sboxWritten = s.sboxWritten := rfl
@[simp] theorem State.setLength_buf (n : Nat) (s : State) : (State.setLength n s).buf = s.buf := rfl
@[simp] theorem State.setLength_wk (n : Nat) (s : State) : (State.setLength n s).wk = s.wk := rfl
@[simp] theorem State.setLength_genI (n : Nat) (s : State) : (State.setLength n s).genI = s.genI := rfl
@[simp] theorem State.setLength_genJ (n : Nat) (s : State) : (State.setLength n s).genJ = s.genJ := rfl
@[simp] theorem State.setLength_genI2 (n : Nat) (s : State) : (State.setLength n s).genI2 = s.genI2 := rfl
@[simp] theorem State.setLength_genTable (n : Nat) (s : State) : (State.setLength n s).genTable = s.genTable := rfl
@[simp] theorem State.setLength_rnd (n : Nat) (s : State) : (State.setLength n s).rnd = s.rnd := rfl
@[simp] theorem State.setLength_blkIdx (n : Nat) (s : State) : (State.setLength n s).blkIdx = s.blkIdx := rfl
@[simp] theorem State.setLength_host (n : Nat) (s : State) : (State.setLength n s).host = s.host := rfl
@[simp] theorem State.setLength_returned (n : Nat) (s : State) : (State.setLength n s).returned = s.returned := rfl
@[simp] theorem State.setLength_draws (n : Nat) (s : State) : (State.setLength n s).draws = s.draws := rfl

@[simp] theorem State.engineWrites_busy (x : Block) (s : State) : (State.engineWrites x s).busy = s.busy := rfl
@[simp] theorem State.engineWrites_done (x : Block) (s : State) : (State.engineWrites x s).done = s.done := rfl
@[simp] theorem State.engineWrites_ctxValid (x : Block) (s : State) : (State.engineWrites x s).ctxValid = s.ctxValid := rfl
@[simp] theorem State.engineWrites_err (x : Block) (s : State) : (State.engineWrites x s).err = s.err := rfl
@[simp] theorem State.engineWrites_pending (x : Block) (s : State) : (State.engineWrites x s).pending = s.pending := rfl
@[simp] theorem State.engineWrites_keyLen (x : Block) (s : State) : (State.engineWrites x s).keyLen = s.keyLen := rfl
@[simp] theorem State.engineWrites_msgLen (x : Block) (s : State) : (State.engineWrites x s).msgLen = s.msgLen := rfl
@[simp] theorem State.engineWrites_block (x : Block) (s : State) : (State.engineWrites x s).block = x := rfl
@[simp] theorem State.engineWrites_bufSize (x : Block) (s : State) : (State.engineWrites x s).bufSize = s.bufSize := rfl
@[simp] theorem State.engineWrites_key (x : Block) (s : State) : (State.engineWrites x s).key = s.key := rfl
@[simp] theorem State.engineWrites_sbox (x : Block) (s : State) : (State.engineWrites x s).sbox = s.sbox := rfl
@[simp] theorem State.engineWrites_sboxWritten (x : Block) (s : State) : (State.engineWrites x s).sboxWritten = s.sboxWritten := rfl
@[simp] theorem State.engineWrites_buf (x : Block) (s : State) : (State.engineWrites x s).buf = s.buf := rfl
@[simp] theorem State.engineWrites_wk (x : Block) (s : State) : (State.engineWrites x s).wk = s.wk := rfl
@[simp] theorem State.engineWrites_genI (x : Block) (s : State) : (State.engineWrites x s).genI = s.genI := rfl
@[simp] theorem State.engineWrites_genJ (x : Block) (s : State) : (State.engineWrites x s).genJ = s.genJ := rfl
@[simp] theorem State.engineWrites_genI2 (x : Block) (s : State) : (State.engineWrites x s).genI2 = s.genI2 := rfl
@[simp] theorem State.engineWrites_genTable (x : Block) (s : State) : (State.engineWrites x s).genTable = s.genTable := rfl
@[simp] theorem State.engineWrites_rnd (x : Block) (s : State) : (State.engineWrites x s).rnd = Config.freeRnd s.draws := rfl
@[simp] theorem State.engineWrites_blkIdx (x : Block) (s : State) : (State.engineWrites x s).blkIdx = s.blkIdx := rfl
@[simp] theorem State.engineWrites_host (x : Block) (s : State) : (State.engineWrites x s).host = s.host := rfl
@[simp] theorem State.engineWrites_returned (x : Block) (s : State) : (State.engineWrites x s).returned = s.returned := rfl
@[simp] theorem State.engineWrites_draws (x : Block) (s : State) : (State.engineWrites x s).draws = s.draws + 1 := rfl

@[simp] theorem State.driverWrites_busy (m : List Host.Cell) (s : State) : (State.driverWrites m s).busy = s.busy := rfl
@[simp] theorem State.driverWrites_done (m : List Host.Cell) (s : State) : (State.driverWrites m s).done = s.done := rfl
@[simp] theorem State.driverWrites_ctxValid (m : List Host.Cell) (s : State) : (State.driverWrites m s).ctxValid = s.ctxValid := rfl
@[simp] theorem State.driverWrites_err (m : List Host.Cell) (s : State) : (State.driverWrites m s).err = s.err := rfl
@[simp] theorem State.driverWrites_pending (m : List Host.Cell) (s : State) : (State.driverWrites m s).pending = s.pending := rfl
@[simp] theorem State.driverWrites_keyLen (m : List Host.Cell) (s : State) : (State.driverWrites m s).keyLen = s.keyLen := rfl
@[simp] theorem State.driverWrites_msgLen (m : List Host.Cell) (s : State) : (State.driverWrites m s).msgLen = s.msgLen := rfl
@[simp] theorem State.driverWrites_block (m : List Host.Cell) (s : State) : (State.driverWrites m s).block = s.block := rfl
@[simp] theorem State.driverWrites_bufSize (m : List Host.Cell) (s : State) : (State.driverWrites m s).bufSize = s.bufSize := rfl
@[simp] theorem State.driverWrites_key (m : List Host.Cell) (s : State) : (State.driverWrites m s).key = s.key := rfl
@[simp] theorem State.driverWrites_sbox (m : List Host.Cell) (s : State) : (State.driverWrites m s).sbox = s.sbox := rfl
@[simp] theorem State.driverWrites_sboxWritten (m : List Host.Cell) (s : State) : (State.driverWrites m s).sboxWritten = s.sboxWritten := rfl
@[simp] theorem State.driverWrites_buf (m : List Host.Cell) (s : State) : (State.driverWrites m s).buf = m := rfl
@[simp] theorem State.driverWrites_wk (m : List Host.Cell) (s : State) : (State.driverWrites m s).wk = s.wk := rfl
@[simp] theorem State.driverWrites_genI (m : List Host.Cell) (s : State) : (State.driverWrites m s).genI = s.genI := rfl
@[simp] theorem State.driverWrites_genJ (m : List Host.Cell) (s : State) : (State.driverWrites m s).genJ = s.genJ := rfl
@[simp] theorem State.driverWrites_genI2 (m : List Host.Cell) (s : State) : (State.driverWrites m s).genI2 = s.genI2 := rfl
@[simp] theorem State.driverWrites_genTable (m : List Host.Cell) (s : State) : (State.driverWrites m s).genTable = s.genTable := rfl
@[simp] theorem State.driverWrites_rnd (m : List Host.Cell) (s : State) : (State.driverWrites m s).rnd = Config.freeRnd s.draws := rfl
@[simp] theorem State.driverWrites_blkIdx (m : List Host.Cell) (s : State) : (State.driverWrites m s).blkIdx = Config.freeBlkIdx (s.draws + 1) := rfl
@[simp] theorem State.driverWrites_host (m : List Host.Cell) (s : State) : (State.driverWrites m s).host = s.host := rfl
@[simp] theorem State.driverWrites_returned (m : List Host.Cell) (s : State) : (State.driverWrites m s).returned = s.returned := rfl
@[simp] theorem State.driverWrites_draws (m : List Host.Cell) (s : State) : (State.driverWrites m s).draws = s.draws + 1 + 1 := rfl

/-- BUF_BYTES and the message length follow their registers. -/
@[simp] theorem State.bufBytes_eq (s : State) : s.bufBytes = s.bufSize.toNat := rfl
@[simp] theorem State.length_eq (s : State) : s.length = s.msgLen.toNat := rfl

end Sys2Proof.Machine
end

