-- ==== Sys2Proof/Laws/Step.lean ====
section
/-! SUPPORT. All that a step can do, said once: whose turn it is, what a host access does, and how a command ends. -/

namespace Sys2Proof.Machine

/-! ## How a command ends -/

theorem State.raise_eq (e : StatusCode) (s : State) : s.raise e = .next (s.complete e) := rfl

theorem State.finish_eq (s : State) : s.finish = .next (s.complete .success) := rfl

theorem State.complete_eq_ended (c : StatusCode) (s : State) : s.complete c = s.ended c.code := rfl

theorem State.needContext_valid {s : State} (h : s.ctxValid = true) (k : Result) : s.needContext k = k := by
  simp [State.needContext, h]

theorem State.needContext_invalid {s : State} (h : s.ctxValid = false) (k : Result) :
    s.needContext k = .next (s.complete .noContext) := by
  simp [State.needContext, h, State.raise_eq]

/-- `needContext` answers NoContext, or has a context and answers `k`. -/
theorem State.needContext_cases {s : State} {k r : Result} (h : s.needContext k = r) :
    (s.ctxValid = false ∧ r = .next (s.complete .noContext)) ∨ (s.ctxValid = true ∧ r = k) := by
  cases hc : s.ctxValid
  · exact .inl ⟨rfl, by rw [← h, State.needContext_invalid hc]⟩
  · exact .inr ⟨rfl, by rw [← h, State.needContext_valid hc]⟩

/-- The end of UNPAD and DEC: the byte was never written, or is refused, or shortens the message. -/
theorem State.unpad_cases (s : State) :
    (Memory.read s.buf (s.msgLen.toNat - 1) = none ∧ s.unpad = .fault .unwrittenRead) ∨
    ∃ v, Memory.read s.buf (s.msgLen.toNat - 1) = some v ∧
      (((v.toNat = 0 ∨ s.msgLen.toNat < v.toNat) ∧ s.unpad = .next (s.complete .invalidPadding)) ∨
       (¬ (v.toNat = 0 ∨ s.msgLen.toNat < v.toNat) ∧
        s.unpad = .next ((s.setLength (s.msgLen.toNat - v.toNat)).complete .success))) := by
  unfold State.unpad
  rw [State.length_eq]
  split
  · next h => exact .inl ⟨h, rfl⟩
  · next v h =>
    refine .inr ⟨v, h, ?_⟩
    unfold unpadLen
    by_cases hv : v.toNat = 0 ∨ s.msgLen.toNat < v.toNat
    · exact .inl ⟨hv, by simp [hv, State.raise_eq]⟩
    · exact .inr ⟨hv, by simp [hv, State.finish_eq]⟩

/-! ## Whose turn it is -/

/-- In the Core's turn a pending word is what the step runs. -/
theorem step_of_coreHasTurn {s : State} {w : Word} (hc : s.coreHasTurn) (hp : s.pending = some w) :
    step s = coreStep w s := by
  unfold step turn
  rcases hc with h | ⟨r, rest, h, hr⟩
  · simp [h, coreTurn, hp]
  · simp [h, State.coreGoesFirst, hr, coreTurn, hp]

/-- In the host's turn the step is its next access. -/
theorem step_of_hostTurn {s : State} {r : HostReq} {rest : List HostReq} (h : s.host = r :: rest)
    (hr : r.coreFirst = false ∨ s.pending = none) : step s = hostAccess r.access (s.withHost rest) := by
  unfold step turn
  simp only [h, State.coreGoesFirst]
  rcases hr with hr | hr <;> simp [hr]

/-- With no access left and nothing pending the block stays as it is. -/
theorem step_of_idle {s : State} (h : s.host = []) (hp : s.pending = none) : step s = .next s := by
  simp [step, turn, h, coreTurn, hp]

/-- Whatever a step answers, it is the Core's on a pending word, the host's next access, or nothing to do. -/
theorem step_turns (s : State) :
    (∃ w, s.coreHasTurn ∧ s.pending = some w ∧ step s = coreStep w s) ∨
    (∃ r rest, s.host = r :: rest ∧ (r.coreFirst = false ∨ s.pending = none) ∧
      step s = hostAccess r.access (s.withHost rest)) ∨
    (s.host = [] ∧ s.pending = none ∧ step s = .next s) := by
  cases hh : s.host with
  | nil =>
    cases hp : s.pending with
    | none => exact .inr (.inr ⟨rfl, rfl, step_of_idle hh hp⟩)
    | some w => exact .inl ⟨w, .inl hh, rfl, step_of_coreHasTurn (.inl hh) hp⟩
  | cons r rest =>
    by_cases hr : r.coreFirst = false ∨ s.pending = none
    · exact .inr (.inl ⟨r, rest, rfl, hr, step_of_hostTurn hh hr⟩)
    · simp only [not_or, Bool.not_eq_false] at hr
      obtain ⟨w, hp⟩ := Option.ne_none_iff_exists'.1 hr.2
      exact .inl ⟨w, .inr ⟨r, rest, hh, hr.1⟩, hp, step_of_coreHasTurn (.inr ⟨r, rest, hh, hr.1⟩) hp⟩

/-- The Core's step runs the decoded command, or completes an illegal word with code 6. -/
theorem coreStep_cases (w : Word) (s : State) :
    (∃ i, decode w = .ok i ∧ coreStep w s = exec i s) ∨
    (∃ why, decode w = .error why ∧ coreStep w s = .next (s.complete .illegalCommand)) := by
  cases h : decode w with
  | ok i => exact .inl ⟨i, rfl, by simp [coreStep, h]⟩
  | error e => exact .inr ⟨e, rfl, by simp [coreStep, h, execIllegal, State.raise_eq]⟩

/-! ## What a host access does -/

/-- A host access that goes through is a read that returns a word, a write that is dropped, a write to a region, or a
reset. -/
theorem hostAccess_next {a : HostAccess} {s t : State} (h : hostAccess a s = .next t) :
    (∃ addr strobes v, a = .read addr strobes ∧ busRefuses addr strobes = false ∧
      v = s.readValue (s.region addr) (Config.draw s.draws) ∧
      t = { s with returned := v :: s.returned, draws := s.draws + 1 }) ∨
    (∃ addr w strobes, a = .write addr w strobes ∧ busRefuses addr strobes = false ∧ s.busy = true ∧ t = s) ∨
    (∃ addr w strobes, a = .write addr w strobes ∧ busRefuses addr strobes = false ∧ s.busy = false ∧
      t = s.writeRegion (s.region addr) w) ∨
    (a = .rst ∧ t = s.resetPulse) := by
  cases a with
  | read addr strobes =>
    simp only [hostAccess, State.busRead] at h
    cases hb : busRefuses addr strobes <;> simp only [hb, if_true, if_false, Bool.false_eq_true, reduceCtorEq] at h
    simp only [Host.Outcome.next.injEq] at h
    exact .inl ⟨addr, strobes, _, rfl, hb, rfl, h.symm⟩
  | write addr w strobes =>
    simp only [hostAccess, State.busWrite] at h
    cases hb : busRefuses addr strobes <;> simp only [hb, if_true, if_false, Bool.false_eq_true, reduceCtorEq] at h
    cases hs : s.busy <;> simp only [hs, if_true, if_false, Bool.false_eq_true, Host.Outcome.next.injEq] at h
    · exact .inr (.inr (.inl ⟨addr, w, strobes, rfl, hb, rfl, h.symm⟩))
    · exact .inr (.inl ⟨addr, w, strobes, rfl, hb, rfl, h.symm⟩)
  | rst =>
    simp only [hostAccess, Host.Outcome.next.injEq] at h
    exact .inr (.inr (.inr ⟨rfl, h.symm⟩))

/-- A host access stops only with `busError`. -/
theorem hostAccess_fault {a : HostAccess} {s : State} {f : Fault} (h : hostAccess a s = .fault f) :
    f = .busError ∧ a ≠ .rst := by
  cases a with
  | read addr strobes =>
    simp only [hostAccess, State.busRead] at h
    cases hb : busRefuses addr strobes <;> simp only [hb, if_true, if_false, Bool.false_eq_true, reduceCtorEq] at h
    exact ⟨(Host.Outcome.fault.inj h).symm, by simp⟩
  | write addr w strobes =>
    simp only [hostAccess, State.busWrite] at h
    cases hb : busRefuses addr strobes <;> simp only [hb, if_true, if_false, Bool.false_eq_true] at h
    · cases hs : s.busy <;> simp only [hs, if_true, if_false, Bool.false_eq_true, reduceCtorEq] at h
    · exact ⟨(Host.Outcome.fault.inj h).symm, by simp⟩
  | rst => cases h

/-- A write to a region changes at most the lifecycle fields (CMD), the data registers, KEY and BUF. -/
theorem State.writeRegion_frame (r : Region) (w : Word) (s : State) :
    (s.writeRegion r w).ctxValid = s.ctxValid ∧ (s.writeRegion r w).bufSize = s.bufSize ∧
    (s.writeRegion r w).sbox = s.sbox ∧ (s.writeRegion r w).sboxWritten = s.sboxWritten ∧
    (s.writeRegion r w).host = s.host ∧ (s.writeRegion r w).returned = s.returned := by
  cases r <;> simp [State.writeRegion]

/-! ## The bus, one access at a time -/

/-- In the host's turn the step is its next access, said of a state whose accesses are put in place. -/
theorem step_withHost (s : State) {r : HostReq} (rest : List HostReq) (hr : r.coreFirst = false ∨ s.pending = none) :
    step (s.withHost (r :: rest)) = hostAccess r.access (s.withHost rest) :=
  step_of_hostTurn (s := s.withHost (r :: rest)) rfl hr

/-- What a write does to a region does not depend on the accesses that are left. -/
theorem State.writeRegion_withHost (r : Region) (w : Word) (s : State) (rest : List HostReq) :
    (s.withHost rest).writeRegion r w = (s.writeRegion r w).withHost rest := by
  cases r <;> rfl

theorem busRefuses_word {addr : Word} (h : addr.toNat % 4 = 0) : busRefuses addr 0xF = false := by
  simp [busRefuses, h]

/-- A whole-word read at a word address returns what the address map gives. -/
theorem State.readsAs_of_region {s : State} {addr : Word} (h : addr.toNat % 4 = 0) :
    s.readsAs addr (s.readValue (s.region addr) (Config.draw s.draws)) := by
  intro rest c hc
  rw [step_withHost s rest hc]
  simp only [hostAccess, State.busRead, busRefuses_word h, if_false, Bool.false_eq_true]
  rfl

/-- A whole-word write at a word address does what the address map gives. -/
theorem State.writesTo_of_idle {s : State} {addr w : Word} (h : addr.toNat % 4 = 0) (hs : s.busy = false) :
    s.writesTo addr w (s.writeRegion (s.region addr) w) := by
  intro rest c hc
  rw [step_withHost s rest hc]
  simp only [hostAccess, State.busWrite, busRefuses_word h, State.withHost_busy, hs, if_false, Bool.false_eq_true]
  exact congrArg Host.Outcome.next (State.writeRegion_withHost _ w s rest)

/-- A whole-word write at a word address is dropped while busy. -/
theorem State.writesTo_of_busy {s : State} {addr w : Word} (h : addr.toNat % 4 = 0) (hs : s.busy = true) :
    s.writesTo addr w s := by
  intro rest c hc
  rw [step_withHost s rest hc]
  simp only [hostAccess, State.busWrite, busRefuses_word h, State.withHost_busy, hs, if_false, if_true, Bool.false_eq_true]

end Sys2Proof.Machine
end

