-- ==== Sys2Proof/Laws/Bus.lean ====
section
/-! SUPPORT. The address map and the packing of bytes into words, one lemma per region and per lane. -/

namespace Sys2Proof.Machine

/-- The four bytes of a packed word (R52). -/
theorem byteOf_packWord (x0 x1 x2 x3 : Byte) :
    byteOf (packWord x0 x1 x2 x3) 0 = x0 ∧ byteOf (packWord x0 x1 x2 x3) 1 = x1 ∧
    byteOf (packWord x0 x1 x2 x3) 2 = x2 ∧ byteOf (packWord x0 x1 x2 x3) 3 = x3 := by
  have e : (packWord x0 x1 x2 x3).toNat = ((x3.toNat * 256 + x2.toNat) * 256 + x1.toNat) * 256 + x0.toNat := by
    show (x3 ++ x2 ++ x1 ++ x0 : BitVec (8+8+8+8)).toNat = _
    have h0 := x0.isLt
    have h1 := x1.isLt
    have h2 := x2.isLt
    simp only [BitVec.toNat_append, Nat.shiftLeft_eq]
    rw [← Nat.shiftLeft_eq, ← Nat.shiftLeft_eq, ← Nat.shiftLeft_eq,
      ← Nat.shiftLeft_add_eq_or_of_lt h2, ← Nat.shiftLeft_add_eq_or_of_lt h1, ← Nat.shiftLeft_add_eq_or_of_lt h0]
    simp only [Nat.shiftLeft_eq]
  have h0 := x0.isLt
  have h1 := x1.isLt
  have h2 := x2.isLt
  have h3 := x3.isLt
  unfold byteOf
  refine ⟨?_, ?_, ?_, ?_⟩ <;> apply BitVec.eq_of_toNat_eq <;> rw [BitVec.extractLsb'_toNat, e, Nat.shiftRight_eq_div_pow] <;> omega

/-- A read at a word address returns whatever the address map gives. -/
theorem State.readsAs_eq {s : State} {addr v : Word} (h : addr.toNat % 4 = 0)
    (hv : s.readValue (s.region addr) (Config.draw s.draws) = v) : s.readsAs addr v := hv ▸ State.readsAs_of_region h

/-- A reserved address selects no register and no window (R54, R57). -/
theorem State.region_reserved {s : State} {addr : Word} (h4 : addr.toNat % 4 = 0) (h : s.reservedAddr addr) :
    s.region addr = .reserved := by
  unfold State.region regionOf State.bufBytes
  unfold State.reservedAddr at h
  repeat' split
  all_goals first | rfl | (exfalso; omega)

/-- The KEY window (R54). -/
theorem State.region_key (s : State) {a : Nat} (h : a < 32) :
    s.region (BitVec.ofNat 32 (0x020 + a)) = .key a := by
  have hn : (BitVec.ofNat 32 (0x020 + a)).toNat = 0x020 + a := by simp; omega
  unfold State.region
  rw [hn]
  unfold regionOf
  repeat' split
  all_goals first | (exfalso; omega) | exact congrArg Region.key (by omega)

/-- The SBOX window (R54). -/
theorem State.region_sbox (s : State) {a : Nat} (h : a < 4096) :
    s.region (BitVec.ofNat 32 (0x1000 + a)) = .sbox a := by
  have hn : (BitVec.ofNat 32 (0x1000 + a)).toNat = 0x1000 + a := by simp; omega
  unfold State.region
  rw [hn]
  unfold regionOf
  repeat' split
  all_goals first | (exfalso; omega) | exact congrArg Region.sbox (by omega)

/-- The BUF window (R54), of a build whose window ends within the address space. -/
theorem State.region_buf (s : State) {a : Nat} (h : a < s.bufBytes)
    (hb : s.bufBytes ≤ 2 ^ 32 - 0x10000) :
    s.region (BitVec.ofNat 32 (0x10000 + a)) = .buf a := by
  have hn : (BitVec.ofNat 32 (0x10000 + a)).toNat = 0x10000 + a := by simp; omega
  unfold State.region
  rw [hn]
  unfold regionOf
  repeat' split
  all_goals first | (exfalso; omega) | exact congrArg Region.buf (by omega)

end Sys2Proof.Machine
end

