-- ==== Sys2Proof/Laws/Memory.lean ====
section
/-! SUPPORT. What the operations over BUF do: read after write, the canonical form, whole byte sequences, blocks, and the
ECB sequencer. -/

namespace Sys2Proof.Machine

/-! ## One byte -/

@[simp] theorem Memory.read_nil (a : Nat) : Memory.read [] a = none := rfl

@[simp] theorem Memory.read_write_same (m : List Host.Cell) (a : Nat) (v : Byte) :
    Memory.read (Memory.write m a v) a = some v := by
  induction m with
  | nil => simp [Memory.write, Memory.read]
  | cons c m ih =>
    obtain ⟨b, x⟩ := c
    unfold Memory.write
    split
    · simp [Memory.read]
    · split
      · simp [Memory.read]
      · simp [Memory.read, ih, show b ≠ a by omega]

theorem Memory.read_write_other (m : List Host.Cell) {a c : Nat} (v : Byte) (h : c ≠ a) :
    Memory.read (Memory.write m a v) c = Memory.read m c := by
  induction m with
  | nil => simp [Memory.write, Memory.read, h.symm]
  | cons d m ih =>
    obtain ⟨b, x⟩ := d
    unfold Memory.write
    split
    · simp [Memory.read, h.symm]
    · split
      · subst_vars; simp [Memory.read, h.symm]
      · simp [Memory.read, ih]

theorem Memory.read_write (m : List Host.Cell) (a c : Nat) (v : Byte) :
    Memory.read (Memory.write m a v) c = if c = a then some v else Memory.read m c := by
  by_cases h : c = a
  · subst h; simp
  · simp [h, Memory.read_write_other m v h]

/-! ## The canonical form -/

theorem Memory.risesAbove_mono {a b : Nat} {m : List Host.Cell} (hab : a ≤ b)
    (h : Memory.risesAbove b m = true) : Memory.risesAbove a m = true := by
  cases m with
  | nil => rfl
  | cons c m => obtain ⟨d, x⟩ := c; simp_all [Memory.risesAbove]; omega

theorem Memory.wf_cons (b : Nat) (x : Byte) (m : List Host.Cell) :
    Memory.wf ((b, x) :: m) = Memory.risesAbove b m := rfl

theorem Memory.risesAbove_write {b a : Nat} {m : List Host.Cell} (v : Byte) (hba : b < a)
    (h : Memory.risesAbove b m = true) : Memory.risesAbove b (Memory.write m a v) = true := by
  induction m generalizing b with
  | nil => simp [Memory.write, Memory.risesAbove, hba]
  | cons c m ih =>
    obtain ⟨d, x⟩ := c
    simp only [Memory.risesAbove, Bool.and_eq_true, decide_eq_true_eq] at h
    unfold Memory.write
    split
    · simp_all [Memory.risesAbove]
    · split
      · simp_all [Memory.risesAbove]
      · simp only [Memory.risesAbove, Bool.and_eq_true, decide_eq_true_eq]
        exact ⟨h.1, ih (by omega) h.2⟩

/-- A write keeps the canonical form. -/
theorem Memory.wf_write {m : List Host.Cell} (a : Nat) (v : Byte) (h : Memory.wf m = true) :
    Memory.wf (Memory.write m a v) = true := by
  cases m with
  | nil => rfl
  | cons c m =>
    obtain ⟨b, x⟩ := c
    unfold Memory.write
    split
    · simp_all [Memory.wf, Memory.risesAbove]
    · split
      · simp_all [Memory.wf]
      · exact Memory.risesAbove_write v (by omega) h

theorem Memory.read_of_risesAbove {b a : Nat} {m : List Host.Cell} (h : Memory.risesAbove b m = true) (hab : a ≤ b) :
    Memory.read m a = none := by
  induction m generalizing b with
  | nil => rfl
  | cons c m ih =>
    obtain ⟨d, x⟩ := c
    simp only [Memory.risesAbove, Bool.and_eq_true, decide_eq_true_eq] at h
    simp [Memory.read, show d ≠ a by omega, ih h.2 (by omega)]

/-- A byte reads as something exactly when its offset is listed. -/
theorem Memory.read_isSome_iff (m : List Host.Cell) (a : Nat) :
    (Memory.read m a).isSome = true ↔ ∃ c ∈ m, c.1 = a := by
  induction m with
  | nil => simp
  | cons c m ih =>
    obtain ⟨b, x⟩ := c
    by_cases h : b = a <;> simp [Memory.read, h, ih]

/-- Two canonical lists that read alike are equal. -/
theorem Memory.ext_of_wf {m n : List Host.Cell} (hm : Memory.wf m = true) (hn : Memory.wf n = true)
    (h : ∀ a, Memory.read m a = Memory.read n a) : m = n := by
  induction m generalizing n with
  | nil =>
    cases n with
    | nil => rfl
    | cons c n => obtain ⟨b, x⟩ := c; simpa [Memory.read] using h b
  | cons c m ih =>
    obtain ⟨b, x⟩ := c
    cases n with
    | nil => simpa [Memory.read] using h b
    | cons d n =>
      obtain ⟨e, y⟩ := d
      simp only [Memory.wf_cons] at hm hn
      have hbe : b = e := by
        rcases Nat.lt_trichotomy b e with hlt | heq | hgt
        · have := h b
          simp [Memory.read, show e ≠ b by omega, Memory.read_of_risesAbove hn (Nat.le_of_lt hlt)] at this
        · exact heq
        · have := h e
          simp [Memory.read, show b ≠ e by omega, Memory.read_of_risesAbove hm (Nat.le_of_lt hgt)] at this
      subst hbe
      have hxy : x = y := by simpa [Memory.read] using h b
      subst hxy
      have wf_tail : ∀ {l : List Host.Cell}, Memory.risesAbove b l = true → Memory.wf l = true := by
        intro l hl
        cases l with
        | nil => rfl
        | cons c l => obtain ⟨g, z⟩ := c; simp_all [Memory.wf, Memory.risesAbove]
      congr 1
      refine ih (wf_tail hm) (wf_tail hn) fun a => ?_
      by_cases hba : b = a
      · subst hba
        rw [Memory.read_of_risesAbove hm (Nat.le_refl _), Memory.read_of_risesAbove hn (Nat.le_refl _)]
      · simpa [Memory.read, hba] using h a

/-! ## Byte sequences -/

/-- What a byte reads as after `MemWrite`. -/
theorem Memory.read_writeBytes (m : List Host.Cell) (a c : Nat) (vs : List Byte) :
    Memory.read (Memory.writeBytes m a vs) c =
      if a ≤ c ∧ c < a + vs.length then vs[c - a]? else Memory.read m c := by
  induction vs generalizing m a with
  | nil => simp [Memory.writeBytes, show ¬ (a ≤ c ∧ c < a) by omega]
  | cons v vs ih =>
    rw [Memory.writeBytes, ih, Memory.read_write]
    rcases Nat.lt_trichotomy c a with h | h | h
    · simp [show ¬ (a + 1 ≤ c) by omega, show ¬ (a ≤ c) by omega, show c ≠ a by omega]
    · subst h; simp
    · obtain ⟨d, rfl⟩ : ∃ d, c = a + 1 + d := ⟨c - (a + 1), by omega⟩
      have e1 : a + 1 + d - a = d + 1 := by omega
      have e2 : a + 1 + d - (a + 1) = d := by omega
      have e3 : a + 1 + d ≠ a := by omega
      have e4 : (a + 1 ≤ a + 1 + d ∧ a + 1 + d < a + 1 + vs.length) ↔
          (a ≤ a + 1 + d ∧ a + 1 + d < a + (v :: vs).length) := by simp; omega
      simp only [e1, e2, e3, e4, if_false, List.getElem?_cons_succ]

theorem Memory.wf_writeBytes {m : List Host.Cell} (a : Nat) (vs : List Byte) (h : Memory.wf m = true) :
    Memory.wf (Memory.writeBytes m a vs) = true := by
  induction vs generalizing m a with
  | nil => exact h
  | cons v vs ih => exact ih (a + 1) (Memory.wf_write a v h)

/-- `MemRead` answers `vs` exactly when each byte reads so. -/
theorem Memory.readBytes_eq_some (m : List Host.Cell) (a n : Nat) (vs : List Byte) :
    Memory.readBytes m a n = some vs ↔ vs.length = n ∧ ∀ k, k < n → Memory.read m (a + k) = vs[k]? := by
  induction n generalizing a vs with
  | zero =>
    constructor
    · rintro h; simp [Memory.readBytes] at h; subst h; simp
    · rintro ⟨h, -⟩; simp [Memory.readBytes, List.eq_nil_of_length_eq_zero h]
  | succ n ih =>
    constructor
    · intro h
      rw [Memory.readBytes] at h
      split at h
      · rename_i v ws hv hws
        obtain ⟨hlen, hread⟩ := (ih (a + 1) ws).1 hws
        simp only [Option.some.injEq] at h
        subst h
        refine ⟨by simp [hlen], fun k hk => ?_⟩
        cases k with
        | zero => simpa using hv
        | succ k => have := hread k (by omega); simpa [Nat.add_assoc, Nat.add_comm 1] using this
      · cases h
    · rintro ⟨hlen, hread⟩
      cases vs with
      | nil => simp at hlen
      | cons v ws =>
        have h0 : Memory.read m a = some v := by simpa using hread 0 (by omega)
        have hws : Memory.readBytes m (a + 1) n = some ws :=
          (ih (a + 1) ws).2 ⟨by simpa using hlen, fun k hk => by
            have := hread (k + 1) (by omega); simpa [Nat.add_assoc, Nat.add_comm 1] using this⟩
        simp [Memory.readBytes, h0, hws]

/-! ## Blocks -/

/-- A half has HALF_BYTES bytes (R6). -/
theorem Half.toBytes_length (h : Half) : h.toBytes.length = Config.halfBytes := rfl

/-- A block has BLOCK_BYTES bytes, written out (R6). -/
@[simp] theorem Block.toBytes_length (x : Block) : x.toBytes.length = 8 := rfl

theorem Block.toBytes_length_eq (x : Block) : x.toBytes.length = Config.blockBytes := rfl

@[simp] theorem Block.ofBytes_toBytes (x : Block) : Block.ofBytes x.toBytes = some x := rfl

theorem Block.ofBytes_eq_some {vs : List Byte} {x : Block} (h : Block.ofBytes vs = some x) : vs = x.toBytes := by
  unfold Block.ofBytes at h
  split at h
  · simp only [Option.some.injEq] at h; subst h; rfl
  · cases h

theorem Block.ofBytes_of_length {vs : List Byte} (h : vs.length = 8) : ∃ x, Block.ofBytes vs = some x ∧ vs = x.toBytes := by
  match vs, h with
  | [x0, x1, x2, x3, x4, x5, x6, x7], _ => exact ⟨⟨⟨x0, x1, x2, x3⟩, ⟨x4, x5, x6, x7⟩⟩, rfl, rfl⟩

/-- A block reads as `x` exactly when its eight bytes do. -/
theorem Memory.readBlock_eq_some (m : List Host.Cell) (n : Nat) (x : Block) :
    Memory.readBlock m n = some x ↔ blockAt (Memory.read m) n x := by
  unfold Memory.readBlock blockAt
  constructor
  · intro h
    obtain ⟨vs, hvs, hx⟩ := Option.bind_eq_some_iff.1 h
    have := Block.ofBytes_eq_some hx
    subst this
    exact ((Memory.readBytes_eq_some m (8 * n) 8 x.toBytes).1 hvs).2
  · intro h
    have := (Memory.readBytes_eq_some m (8 * n) 8 x.toBytes).2 ⟨rfl, h⟩
    simp [this]

theorem Memory.readBlock_isSome (m : List Host.Cell) (n : Nat)
    (h : ∀ k, k < 8 → (Memory.read m (8 * n + k)).isSome = true) : ∃ x, Memory.readBlock m n = some x := by
  have go : ∀ (c a : Nat), (∀ k, k < c → (Memory.read m (a + k)).isSome = true) →
      ∃ vs, Memory.readBytes m a c = some vs := by
    intro c
    induction c with
    | zero => intro a _; exact ⟨[], rfl⟩
    | succ c ih =>
      intro a ha
      obtain ⟨v, hv⟩ := Option.isSome_iff_exists.1 (ha 0 (by omega))
      obtain ⟨ws, hws⟩ := ih (a + 1) fun k hk => by
        have := ha (k + 1) (by omega); simpa [Nat.add_assoc, Nat.add_comm 1] using this
      exact ⟨v :: ws, by simp only [Nat.add_zero] at hv; simp [Memory.readBytes, hv, hws]⟩
  obtain ⟨vs, hvs⟩ := go 8 (8 * n) h
  obtain ⟨x, hx, -⟩ := Block.ofBytes_of_length ((Memory.readBytes_eq_some m (8 * n) 8 vs).1 hvs).1
  exact ⟨x, by simp [Memory.readBlock, hvs, hx]⟩

/-- What a byte reads as after a block is written. -/
theorem Memory.read_writeBlock (m : List Host.Cell) (n a : Nat) (x : Block) :
    Memory.read (Memory.writeBlock m n x) a =
      if 8 * n ≤ a ∧ a < 8 * n + 8 then x.toBytes[a - 8 * n]? else Memory.read m a := by
  rw [Memory.writeBlock, Memory.read_writeBytes]; rfl

theorem blockAt_congr {f g : Nat → Option Byte} {n : Nat} {x : Block}
    (h : ∀ a, 8 * n ≤ a → a < 8 * n + 8 → f a = g a) (hg : blockAt g n x) : blockAt f n x :=
  fun k hk => (h _ (by omega) (by omega)).trans (hg k hk)

theorem blockAt_unique {f : Nat → Option Byte} {n : Nat} {x y : Block} (hx : blockAt f n x) (hy : blockAt f n y) :
    x = y := by
  have : x.toBytes = y.toBytes := by
    apply List.ext_getElem?
    intro k
    by_cases hk : k < 8
    · rw [← hx k hk, ← hy k hk]
    · rw [List.getElem?_eq_none (by simpa using hk), List.getElem?_eq_none (by simpa using hk)]
  have h2 := congrArg Block.ofBytes this
  simpa using h2

theorem blockAt_writeBlock (m : List Host.Cell) (n : Nat) (x : Block) :
    blockAt (Memory.read (Memory.writeBlock m n x)) n x := by
  intro k hk
  rw [Memory.read_writeBlock, if_pos ⟨by omega, by omega⟩]
  congr 1; omega

/-! ## The ECB sequencer (43_block_driver.md R165) -/

/-- All that the sequencer does: each block of the range is read and its image written in its place; other bytes stay. -/
theorem cryptBlocks_spec {f : Block → Block} {count n : Nat} {m m' : List Host.Cell}
    (h : cryptBlocks f count n m = some m') :
    (∀ k, n ≤ k → k < n + count → ∃ x, blockAt (Memory.read m) k x ∧ blockAt (Memory.read m') k (f x)) ∧
    (∀ a, a < 8 * n ∨ 8 * (n + count) ≤ a → Memory.read m' a = Memory.read m a) := by
  induction count generalizing n m with
  | zero => simp only [cryptBlocks, Option.some.injEq] at h; subst h; exact ⟨fun k h1 h2 => by omega, fun _ _ => rfl⟩
  | succ count ih =>
    rw [cryptBlocks] at h
    split at h
    · cases h
    · rename_i x hx
      obtain ⟨hb, hrest⟩ := ih h
      have hx' := (Memory.readBlock_eq_some m n x).1 hx
      refine ⟨fun k h1 h2 => ?_, fun a ha => ?_⟩
      · rcases Nat.eq_or_lt_of_le h1 with rfl | hlt
        · refine ⟨x, hx', blockAt_congr (fun a _ h4 => hrest a (Or.inl (by omega))) (blockAt_writeBlock m n (f x))⟩
        · obtain ⟨y, hy, hy'⟩ := hb k (by omega) (by omega)
          refine ⟨y, blockAt_congr (fun a h3 _ => ?_) hy, hy'⟩
          rw [Memory.read_writeBlock, if_neg (by omega)]
      · rw [hrest a (by omega), Memory.read_writeBlock, if_neg (by omega)]

/-- The sequencer goes through exactly when every byte of the range was written. -/
theorem cryptBlocks_isSome_iff (f : Block → Block) (count n : Nat) (m : List Host.Cell) :
    (cryptBlocks f count n m).isSome = true ↔
      ∀ a, 8 * n ≤ a → a < 8 * (n + count) → (Memory.read m a).isSome = true := by
  constructor
  · intro h a h1 h2
    obtain ⟨m', hm'⟩ := Option.isSome_iff_exists.1 h
    obtain ⟨x, hx, -⟩ := (cryptBlocks_spec hm').1 (a / 8) (by omega) (by omega)
    have := hx (a % 8) (Nat.mod_lt _ (by decide))
    rw [Nat.div_add_mod] at this
    rw [this]
    have : a % 8 < x.toBytes.length := Nat.mod_lt _ (by decide)
    simp [List.getElem?_eq_getElem this]
  · intro h
    induction count generalizing n m with
    | zero => rfl
    | succ count ih =>
      obtain ⟨x, hx⟩ := Memory.readBlock_isSome m n fun k hk => h _ (by omega) (by omega)
      rw [cryptBlocks, hx]
      refine ih (n + 1) _ fun a h1 h2 => ?_
      rw [Memory.read_writeBlock, if_neg (by omega)]
      exact h a (by omega) (by omega)

/-- The sequencer keeps the canonical form. -/
theorem wf_cryptBlocks {f : Block → Block} {count n : Nat} {m m' : List Host.Cell}
    (h : cryptBlocks f count n m = some m') (hm : Memory.wf m = true) : Memory.wf m' = true := by
  induction count generalizing n m with
  | zero => simp only [cryptBlocks, Option.some.injEq] at h; subst h; exact hm
  | succ count ih =>
    rw [cryptBlocks] at h
    split at h
    · cases h
    · exact ih h (Memory.wf_writeBytes _ _ hm)

/-- The sequencer writes no byte that was not written before. -/
theorem isSome_of_cryptBlocks {f : Block → Block} {count n : Nat} {m m' : List Host.Cell}
    (h : cryptBlocks f count n m = some m') (a : Nat) (ha : (Memory.read m' a).isSome = true) :
    (Memory.read m a).isSome = true := by
  by_cases hr : 8 * n ≤ a ∧ a < 8 * (n + count)
  · exact (cryptBlocks_isSome_iff f count n m).1 (by simp [h]) a hr.1 hr.2
  · rwa [(cryptBlocks_spec h).2 a (by omega)] at ha

end Sys2Proof.Machine
end

