-- ==== Sys2Proof/Laws/Exec.lean ====
section
/-! SUPPORT. How every command ends, which fields no command writes, and what the padded buffer and the two message commands
come to. -/

namespace Sys2Proof.Machine

/-- The end of UNPAD and DEC completes, or stops on a byte never written. -/
theorem State.unpad_shape (s : State) :
    (∃ c t, s.unpad = .next (State.complete c t)) ∨ s.unpad = .fault .unwrittenRead := by
  rcases s.unpad_cases with ⟨_, h⟩ | ⟨v, _, ⟨_, h⟩ | ⟨_, h⟩⟩
  · exact .inr h
  · exact .inl ⟨_, _, h⟩
  · exact .inl ⟨_, _, h⟩

/-- Every command completes, but for UNPAD, ENC and DEC on a byte of BUF never written. -/
theorem exec_shape (i : Instr) (s : State) :
    (∃ c t, exec i s = .next (State.complete c t)) ∨
    (exec i s = .fault .unwrittenRead ∧ (i = .unpad ∨ ((i = .enc ∨ i = .dec) ∧ s.ctxValid = true))) := by
  cases i <;> rw [exec]
  · exact .inl ⟨_, _, rfl⟩
  · unfold execMkctx; split <;> exact .inl ⟨_, _, rfl⟩
  · unfold execPad; split <;> exact .inl ⟨_, _, rfl⟩
  · unfold execUnpad
    split
    · exact .inl ⟨_, _, rfl⟩
    · split
      · exact .inl ⟨_, _, rfl⟩
      · rcases s.unpad_shape with h | h
        · exact .inl h
        · exact .inr ⟨h, .inl rfl⟩
  · unfold execEncr State.needContext; split <;> exact .inl ⟨_, _, rfl⟩
  · unfold execDecr State.needContext; split <;> exact .inl ⟨_, _, rfl⟩
  · unfold execEncb State.needContext; split <;> exact .inl ⟨_, _, rfl⟩
  · unfold execDecb State.needContext; split <;> exact .inl ⟨_, _, rfl⟩
  · unfold execEnc State.needContext
    split
    · split
      · split
        · exact .inr ⟨rfl, .inr ⟨.inl rfl, ‹_›⟩⟩
        · exact .inl ⟨_, _, rfl⟩
      · exact .inl ⟨_, _, rfl⟩
    · exact .inl ⟨_, _, rfl⟩
  · unfold execDec State.needContext
    split
    · split
      · exact .inl ⟨_, _, rfl⟩
      · split
        · exact .inl ⟨_, _, rfl⟩
        · split
          · exact .inr ⟨rfl, .inr ⟨.inr rfl, ‹_›⟩⟩
          · rename_i m _
            rcases (s.driverWrites m).unpad_shape with h | h
            · exact .inl h
            · exact .inr ⟨h, .inr ⟨.inr rfl, ‹_›⟩⟩
    · exact .inl ⟨_, _, rfl⟩
  · exact .inl ⟨_, _, rfl⟩

/-- No command touches what the host holds, BUF_SIZE or KEY_LEN. -/
theorem exec_host_fields {i : Instr} {s t : State} (h : exec i s = .next t) :
    t.host = s.host ∧ t.returned = s.returned ∧ t.bufSize = s.bufSize ∧ t.keyLen = s.keyLen := by
  have un : ∀ {s t : State}, s.unpad = .next t →
      t.host = s.host ∧ t.returned = s.returned ∧ t.bufSize = s.bufSize ∧ t.keyLen = s.keyLen := by
    intro s t h
    rcases s.unpad_cases with ⟨_, h2⟩ | ⟨v, _, ⟨_, h2⟩ | ⟨_, h2⟩⟩ <;> rw [h2] at h
    · cases h
    · obtain rfl := (Host.Outcome.next.inj h); simp
    · obtain rfl := (Host.Outcome.next.inj h); simp
  cases i <;> simp only [exec] at h
  case nop => obtain rfl := Host.Outcome.next.inj h; simp
  case mkctx => unfold execMkctx at h; split at h <;> (obtain rfl := Host.Outcome.next.inj h; simp)
  case pad => unfold execPad at h; split at h <;> (obtain rfl := Host.Outcome.next.inj h; simp)
  case unpad =>
    unfold execUnpad at h
    split at h
    · obtain rfl := Host.Outcome.next.inj h; simp
    · split at h
      · obtain rfl := Host.Outcome.next.inj h; simp
      · exact un h
  case encr => unfold execEncr State.needContext at h; split at h <;> (obtain rfl := Host.Outcome.next.inj h; simp)
  case decr => unfold execDecr State.needContext at h; split at h <;> (obtain rfl := Host.Outcome.next.inj h; simp)
  case encb => unfold execEncb State.needContext at h; split at h <;> (obtain rfl := Host.Outcome.next.inj h; simp)
  case decb => unfold execDecb State.needContext at h; split at h <;> (obtain rfl := Host.Outcome.next.inj h; simp)
  case enc =>
    unfold execEnc State.needContext at h
    split at h
    · split at h
      · split at h
        · cases h
        · obtain rfl := Host.Outcome.next.inj h; simp
      · obtain rfl := Host.Outcome.next.inj h; simp
    · obtain rfl := Host.Outcome.next.inj h; simp
  case dec =>
    unfold execDec State.needContext at h
    split at h
    · split at h
      · obtain rfl := Host.Outcome.next.inj h; simp
      · split at h
        · obtain rfl := Host.Outcome.next.inj h; simp
        · split at h
          · cases h
          · simpa using un h
    · obtain rfl := Host.Outcome.next.inj h; simp
  case clrctx => obtain rfl := Host.Outcome.next.inj h; simp

/-! ## Padding -/

/-- The capacity check of PAD and ENC is one sum against BUF_BYTES (R122). -/
theorem State.padFits_iff (s : State) :
    s.padFits = true ↔ s.msgLen.toNat + padValue s.msgLen.toNat ≤ s.bufSize.toNat := by
  unfold State.padFits State.length State.bufBytes
  simp only [Bool.and_eq_true, decide_eq_true_eq]
  omega

/-- What the padded buffer reads as (R121, R122). -/
theorem State.read_paddedBuf (s : State) (a : Nat) :
    Memory.read s.paddedBuf a =
    if s.msgLen.toNat ≤ a ∧ a < s.msgLen.toNat + padValue s.msgLen.toNat then
      some (BitVec.ofNat 8 (padValue s.msgLen.toNat))
    else Memory.read s.buf a := by
  unfold State.paddedBuf State.length padding
  rw [Memory.read_writeBytes]
  simp only [List.length_replicate]
  split
  · rw [List.getElem?_replicate]; rw [if_pos (by omega)]
  · rfl

/-! ## ENC and DEC past their checks -/

/-- ENC where the padded message fits: a byte of the message was never written, or the sequencer's result is BUF (R166). -/
theorem execEnc_fits {s : State} (hv : s.ctxValid = true)
    (hf : s.msgLen.toNat + padValue s.msgLen.toNat ≤ s.bufSize.toNat) :
    (¬ s.messageWritten ∧ exec .enc s = .fault .unwrittenRead) ∨
    ∃ m, s.messageWritten ∧
      cryptBlocks (fun x => encBlock x s.sbox) ((s.msgLen.toNat + padValue s.msgLen.toNat) / 8) 0 s.paddedBuf = some m ∧
      exec .enc s = .next ((State.setLength (s.msgLen.toNat + padValue s.msgLen.toNat) (s.driverWrites m)).complete .success) := by
  have hp : 1 ≤ padValue s.msgLen.toNat ∧ (s.msgLen.toNat + padValue s.msgLen.toNat) % 8 = 0 := by
    unfold padValue; omega
  have hw :
      (cryptBlocks (fun x => encBlock x s.sbox) ((s.msgLen.toNat + padValue s.msgLen.toNat) / 8) 0 s.paddedBuf).isSome = true ↔ s.messageWritten := by
    rw [cryptBlocks_isSome_iff]
    constructor
    · intro h a ha
      have := h a (by omega) (by omega)
      rw [State.read_paddedBuf, if_neg (by omega)] at this
      exact this
    · intro h a _ ha
      rw [State.read_paddedBuf]
      split
      · rfl
      · exact h a (by omega)
  rw [exec]
  unfold execEnc
  rw [State.needContext_valid hv, if_pos (s.padFits_iff.2 hf)]
  unfold paddedLength State.length
  cases hc : cryptBlocks (fun x => encBlock x s.sbox) ((s.msgLen.toNat + padValue s.msgLen.toNat) / 8) 0 s.paddedBuf with
  | none => exact .inl ⟨fun h => by simpa [hc] using hw.2 h, rfl⟩
  | some m => exact .inr ⟨m, hw.1 (by simp [hc]), rfl, rfl⟩

/-- DEC of a legal length: a byte of the message was never written, or the sequencer's result is BUF and its last byte decides
(R168). -/
theorem execDec_runs {s : State} (hv : s.ctxValid = true) (h1 : s.msgLen.toNat ≤ s.bufSize.toNat)
    (h2 : s.msgLen.toNat ≠ 0) (h3 : s.msgLen.toNat % 8 = 0) :
    (¬ s.messageWritten ∧ exec .dec s = .fault .unwrittenRead) ∨
    ∃ m v, s.messageWritten ∧ cryptBlocks (fun x => decBlock x s.sbox) (s.msgLen.toNat / 8) 0 s.buf = some m ∧
      Memory.read m (s.msgLen.toNat - 1) = some v ∧
      (((v.toNat = 0 ∨ s.msgLen.toNat < v.toNat) ∧ exec .dec s = .next ((s.driverWrites m).complete .invalidPadding)) ∨
       (¬ (v.toNat = 0 ∨ s.msgLen.toNat < v.toNat) ∧
        exec .dec s = .next (((s.driverWrites m).setLength (s.msgLen.toNat - v.toNat)).complete .success))) := by
  have hw :
      (cryptBlocks (fun x => decBlock x s.sbox) (s.msgLen.toNat / 8) 0 s.buf).isSome = true ↔ s.messageWritten := by
    rw [cryptBlocks_isSome_iff]
    constructor
    · intro h a ha; exact h a (by omega) (by omega)
    · intro h a _ ha; exact h a (by omega)
  rw [exec]
  unfold execDec
  rw [State.needContext_valid hv]
  unfold State.bufBytes State.length
  rw [if_neg (by omega), if_neg (by omega)]
  cases hc : cryptBlocks (fun x => decBlock x s.sbox) (s.msgLen.toNat / 8) 0 s.buf with
  | none => exact .inl ⟨fun h => by simpa [hc] using hw.2 h, rfl⟩
  | some m =>
    right
    simp only
    have e1 : (s.driverWrites m).msgLen = s.msgLen := by simp
    have e2 : (s.driverWrites m).buf = m := by simp
    have hm : s.messageWritten := hw.1 (by simp [hc])
    rcases (s.driverWrites m).unpad_cases with ⟨hn, _⟩ | ⟨v, hv2, hr⟩
    · exfalso
      rw [e1, e2] at hn
      obtain ⟨x, hx, hy⟩ := (cryptBlocks_spec hc).1 ((s.msgLen.toNat - 1) / 8) (by omega) (by omega)
      have := hy ((s.msgLen.toNat - 1) % 8) (by omega)
      rw [show 8 * ((s.msgLen.toNat - 1) / 8) + (s.msgLen.toNat - 1) % 8 = s.msgLen.toNat - 1 by omega, hn] at this
      have hl := Block.toBytes_length (decBlock x s.sbox)
      have h9 : (s.msgLen.toNat - 1) % 8 < (decBlock x s.sbox).toBytes.length := by omega
      rw [List.getElem?_eq_getElem h9] at this
      cases this
    · rw [e1] at hr hv2
      rw [e2] at hv2
      exact ⟨m, v, hm, rfl, hv2, hr⟩

end Sys2Proof.Machine
end

