-- ==== Sys2Proof/Laws/Generator.lean ====
section
/-! SUPPORT. The shuffle of the S-box generator only permutes. -/

namespace Sys2Proof.Machine

/-- Any run of shuffle iterations permutes the table (R104). -/
theorem foldl_shuffleStep_perm (wk : Key) (l : List Byte) (jt : Byte × SBox) :
    (l.foldl (shuffleStep wk) jt).2.toList.Perm jt.2.toList := by
  induction l generalizing jt with
  | nil => exact .refl _
  | cons b l ih =>
    have := Vector.swap_perm (xs := jt.2) b.isLt (nextIndex wk jt.2 jt.1 b).isLt
    exact (ih _).trans (Vector.perm_iff_toList_perm.1 this)

end Sys2Proof.Machine
end

