-- ==== Sys2Proof/Laws/Packed.lean ====
section
/-! SUPPORT. The S-box generator on tables packed into one number, equal to the generator of 40_sbox_generator.md and cheap
to evaluate. -/

namespace Sys2Proof.Machine

/-- Byte `e` of a packed table. -/
def lane (n e : Nat) : Nat := (n >>> (8 * e)) % 256

/-- A table packed into one number, its first entry lowest. -/
def packBytes (v : List Byte) : Nat := v.foldr (fun b m => m * 256 + b.toNat) 0

/-- `n` packs the entries of `v`. -/
def Packs (n : Nat) (v : List Byte) : Prop := ∀ e (h : e < v.length), lane n e = v[e].toNat

/-- One iteration of the shuffle (R104) on a packed table. -/
def packedStep (wk : Nat) (jt : Nat × Nat) (i2 : Byte) : Nat × Nat :=
  let j := (jt.1 + lane wk ((lane jt.2 i2.toNat + lane jt.2 jt.1) % 32)) % 256
  let d := lane jt.2 i2.toNat ^^^ lane jt.2 j
  (j, jt.2 ^^^ (d <<< (8 * i2.toNat)) ^^^ (d <<< (8 * j)))

/-- `GenBox` (R104) on packed tables. -/
def packedBox (wk : List Byte) : Nat :=
  (allBytes.foldl (packedStep (packBytes wk)) ((wk.map BitVec.toNat).sum % 256, packBytes allBytes)).2

/-- `KeyStep` (R102) on a list of bytes. -/
def listKeyStep (i : Byte) : List Byte → List Byte
  | [] => []
  | [a] => [a]
  | _ :: b :: wk => (b ^^^ i) :: listKeyStep i (b :: wk)

/-- The working key before box `b` (R102) as a list of bytes. -/
def listWorkingKey (key : List Byte) : Nat → List Byte
  | 0 => key
  | i + 1 => listKeyStep (BitVec.ofNat 8 (i + 1)) (listWorkingKey key i)

/-! ## Lanes -/

theorem lane_lt (n e : Nat) : lane n e < 256 := Nat.mod_lt _ (by decide)

theorem lane_xor (a b e : Nat) : lane (a ^^^ b) e = lane a e ^^^ lane b e := by
  unfold lane
  rw [Nat.shiftRight_xor_distrib]
  exact Nat.xor_mod_two_pow (n := 8)

theorem lane_shiftLeft {d : Nat} (hd : d < 256) (i e : Nat) : lane (d <<< (8 * i)) e = if e = i then d else 0 := by
  unfold lane
  apply Nat.eq_of_testBit_eq
  intro k
  rw [show (256 : Nat) = 2 ^ 8 from rfl, Nat.testBit_mod_two_pow, Nat.testBit_shiftRight, Nat.testBit_shiftLeft]
  have hz : ∀ m, 8 ≤ m → d.testBit m = false := fun m hm =>
    Nat.testBit_lt_two_pow (lt_of_lt_of_le hd (Nat.pow_le_pow_right (by decide) hm : 2 ^ 8 ≤ 2 ^ m))
  by_cases hei : e = i
  · subst hei
    by_cases hk : k < 8
    · simp [hk]
    · simp [hk, hz k (by omega)]
  · by_cases hk : k < 8
    · by_cases hlt : e < i
      · simp [hei, show ¬ (8 * i ≤ 8 * e + k) by omega]
      · simp [hei, hz (8 * e + k - 8 * i) (by omega)]
    · simp [hk, hei]

theorem packs_packBytes (v : List Byte) : Packs (packBytes v) v := by
  induction v with
  | nil => intro e h; exact absurd h (by simp)
  | cons b v ih =>
    have hp : packBytes (b :: v) = packBytes v * 256 + b.toNat := rfl
    have hb := b.isLt
    intro e h
    rw [hp]
    unfold lane
    cases e with
    | zero => simp; omega
    | succ e =>
      have := ih e (by simpa using h)
      unfold lane at this
      rw [show 8 * (e + 1) = 8 + 8 * e by omega, Nat.shiftRight_add,
        show (packBytes v * 256 + b.toNat) >>> 8 = packBytes v by rw [Nat.shiftRight_eq_div_pow]; omega, this]
      rfl

/-! ## The shuffle -/

theorem packedStep_spec {wk : Key} {t : SBox} {w n : Nat} {j : Byte} (i2 : Byte) (hw : Packs w wk.toList)
    (hn : Packs n t.toList) :
    (packedStep w (j.toNat, n) i2).1 = (shuffleStep wk (j, t) i2).1.toNat ∧
    Packs (packedStep w (j.toNat, n) i2).2 (shuffleStep wk (j, t) i2).2.toList := by
  have ht : ∀ b : Byte, lane n b.toNat = (t.entry b).toNat := by
    intro b
    rw [hn b.toNat (by simpa using b.isLt), Vector.getElem_toList]
    rfl
  have hj : (packedStep w (j.toNat, n) i2).1 = (shuffleStep wk (j, t) i2).1.toNat := by
    simp only [packedStep, shuffleStep, nextIndex, BitVec.toNat_add, Config.keyIndexMod, ht]
    rw [hw _ (by simpa using Nat.mod_lt _ (by decide)), Vector.getElem_toList]
  refine ⟨hj, fun e he => ?_⟩
  have he' : e < 256 := by simpa using he
  rw [show (packedStep w (j.toNat, n) i2).2 =
    let d := lane n i2.toNat ^^^ lane n (packedStep w (j.toNat, n) i2).1
    n ^^^ (d <<< (8 * i2.toNat)) ^^^ (d <<< (8 * (packedStep w (j.toNat, n) i2).1)) from rfl, hj]
  have swapped : ∀ q : Byte,
      lane (n ^^^ ((lane n i2.toNat ^^^ lane n q.toNat) <<< (8 * i2.toNat)) ^^^
        ((lane n i2.toNat ^^^ lane n q.toNat) <<< (8 * q.toNat))) e =
      ((t.swap i2.toNat q.toNat i2.isLt q.isLt)[e]'he').toNat := by
    intro q
    have hd : lane n i2.toNat ^^^ lane n q.toNat < 256 := Nat.xor_lt_two_pow (n := 8) (lane_lt _ _) (lane_lt _ _)
    rw [lane_xor, lane_xor, lane_shiftLeft hd, lane_shiftLeft hd, hn e (by simpa using he'), Vector.getElem_toList, ht, ht,
      Vector.getElem_swap]
    by_cases h1 : e = i2.toNat
    · subst h1
      by_cases h2 : i2.toNat = q.toNat
      · obtain rfl := BitVec.eq_of_toNat_eq h2
        simp [SBox.entry]
      · simp [h2, SBox.entry]
    · by_cases h2 : e = q.toNat
      · subst h2
        simp [h1, SBox.entry, Nat.xor_comm (t[i2.toNat]'i2.isLt).toNat]
      · simp [h1, h2]
  simpa only [shuffleStep, Vector.getElem_toList] using swapped (nextIndex wk t j i2)

theorem packedFold_spec {wk : Key} {w : Nat} (hw : Packs w wk.toList) (l : List Byte) (j : Byte) (t : SBox) (n : Nat)
    (hn : Packs n t.toList) :
    Packs (l.foldl (packedStep w) (j.toNat, n)).2 (l.foldl (shuffleStep wk) (j, t)).2.toList := by
  induction l generalizing j t n with
  | nil => exact hn
  | cons i2 l ih =>
    obtain ⟨h1, h2⟩ := packedStep_spec (j := j) i2 hw hn
    have := ih (shuffleStep wk (j, t) i2).1 (shuffleStep wk (j, t) i2).2 _ h2
    rw [← h1] at this
    exact this

/-- The packed generator computes `GenBox`. -/
theorem packs_packedBox (wk : Key) : Packs (packedBox wk.toList) (genBox wk).toList := by
  have hid : identityBox.toList = allBytes := by
    apply List.ext_getElem
    · simp [allBytes]
    · intro e h1 h2
      simp only [identityBox, Vector.getElem_toList, Vector.getElem_ofFn, allBytes, List.getElem_map, List.getElem_range]
  have hs : (startIndex wk).toNat = (wk.toList.map BitVec.toNat).sum % 256 := by simp [startIndex]
  have h0 : Packs (packBytes allBytes) identityBox.toList := by rw [hid]; exact packs_packBytes allBytes
  unfold packedBox genBox
  rw [← hs]
  exact packedFold_spec (packs_packBytes wk.toList) allBytes (startIndex wk) identityBox (packBytes allBytes) h0

/-! ## The working key -/

theorem listKeyStep_length (i : Byte) (wk : List Byte) : (listKeyStep i wk).length = wk.length := by
  induction wk with
  | nil => rfl
  | cons a wk ih =>
    cases wk with
    | nil => rfl
    | cons b wk => simp only [listKeyStep, List.length_cons]; rw [ih]; rfl

theorem listKeyStep_getElem (i : Byte) (wk : List Byte) (p : Nat) (h : p < (listKeyStep i wk).length) (hp : p < wk.length) :
    (listKeyStep i wk)[p] = if h' : p + 1 < wk.length then wk[p + 1] ^^^ i else wk[p] := by
  induction wk generalizing p with
  | nil => exact absurd hp (by simp)
  | cons a wk ih =>
    cases wk with
    | nil =>
      obtain rfl : p = 0 := by simpa using hp
      simp [listKeyStep]
    | cons b wk =>
      cases p with
      | zero => simp [listKeyStep]
      | succ p =>
        simp only [listKeyStep, List.getElem_cons_succ]
        rw [ih p (by rw [listKeyStep_length]; simpa using hp) (by simpa using hp)]
        simp only [List.length_cons, Nat.add_lt_add_iff_right]
        rfl

/-- `KeyStep` on a list of bytes is `KeyStep`. -/
theorem keyStep_toList (wk : Key) (i : Byte) : (keyStep wk i).toList = listKeyStep i wk.toList := by
  apply List.ext_getElem
  · simp [listKeyStep_length]
  · intro p h1 h2
    have hp : p < 32 := by simpa using h1
    rw [listKeyStep_getElem i wk.toList p h2 (by simpa using hp)]
    simp only [keyStep, Vector.getElem_toList, Vector.getElem_ofFn, Vector.length_toList]
    by_cases h : p < 31
    · simp [h, show p + 1 < 32 by omega]
    · simp [h, show ¬ p + 1 < 32 by omega]

theorem workingKey_toList (key : Key) (i : Nat) : (workingKey key i).toList = listWorkingKey key.toList i := by
  induction i with
  | zero => rfl
  | succ i ih => rw [workingKey, keyStep_toList, ih]; rfl

/-- Entry `e` of box `b` of the context of `key` (R105), by the packed generator. -/
theorem gen_entry (key : Key) (b : Fin 16) (e : Fin 256) :
    ((gen key)[b])[e].toNat = lane (packedBox (listWorkingKey key.toList b.val)) e.val := by
  rw [← workingKey_toList, packs_packedBox _ e.val (by simp), Vector.getElem_toList]
  simp [gen]

end Sys2Proof.Machine
end

