-- ==== Sys2Proof/Laws/PerInstr.lean ====
section
/-! SUPPORT. Facts about every command as a term, one lemma per constructor: its word matches its row of the opcode table
(30_encoding.md R79), and its fields pass the checks of WellFormed. -/

namespace Sys2Proof.Laws

/-- A command's word, under its row's mask, is its row's match. -/
def TableRow.Statement (i : Instr) : Prop := encode i &&& (tableRow i).2 = (tableRow i).1

theorem TableRow.nop : TableRow.Statement .nop := by unfold TableRow.Statement; decide
theorem TableRow.mkctx : TableRow.Statement .mkctx := by unfold TableRow.Statement; decide
theorem TableRow.pad : TableRow.Statement .pad := by unfold TableRow.Statement; decide
theorem TableRow.unpad : TableRow.Statement .unpad := by unfold TableRow.Statement; decide
theorem TableRow.encr (r : BitVec 4) : TableRow.Statement (.encr r) := by
  unfold TableRow.Statement; revert r; decide
theorem TableRow.decr (r : BitVec 4) : TableRow.Statement (.decr r) := by
  unfold TableRow.Statement; revert r; decide
theorem TableRow.encb : TableRow.Statement .encb := by unfold TableRow.Statement; decide
theorem TableRow.decb : TableRow.Statement .decb := by unfold TableRow.Statement; decide
theorem TableRow.enc : TableRow.Statement .enc := by unfold TableRow.Statement; decide
theorem TableRow.dec : TableRow.Statement .dec := by unfold TableRow.Statement; decide
theorem TableRow.clrctx : TableRow.Statement .clrctx := by unfold TableRow.Statement; decide

/-- A command's fields pass every check of a well-formed command word (R70, R76). -/
def Fields.Statement (i : Instr) : Prop := (instrFields i).wellFormed = true

theorem Fields.nop : Fields.Statement .nop := by unfold Fields.Statement; decide
theorem Fields.mkctx : Fields.Statement .mkctx := by unfold Fields.Statement; decide
theorem Fields.pad : Fields.Statement .pad := by unfold Fields.Statement; decide
theorem Fields.unpad : Fields.Statement .unpad := by unfold Fields.Statement; decide
theorem Fields.encr (r : BitVec 4) : Fields.Statement (.encr r) := by unfold Fields.Statement; revert r; decide
theorem Fields.decr (r : BitVec 4) : Fields.Statement (.decr r) := by unfold Fields.Statement; revert r; decide
theorem Fields.encb : Fields.Statement .encb := by unfold Fields.Statement; decide
theorem Fields.decb : Fields.Statement .decb := by unfold Fields.Statement; decide
theorem Fields.enc : Fields.Statement .enc := by unfold Fields.Statement; decide
theorem Fields.dec : Fields.Statement .dec := by unfold Fields.Statement; decide
theorem Fields.clrctx : Fields.Statement .clrctx := by unfold Fields.Statement; decide

end Sys2Proof.Laws
end

