-- ==== Sys2Proof/Tests/Slice0.lean ====
section
/-! SUPPORT. Small tests, each one step or one operation, their expected values from spec/95_test_vectors.md or worked out by
hand there, and a witness for every statement that has hypotheses. -/

namespace Sys2Proof.Tests

open Sys2Proof.Machine

/-! ## Helpers -/

/-- The answer is a next state with the property. -/
def answers (r : Result) (p : State → Bool) : Bool :=
  match r with
  | .next t => p t
  | .fault _ => false
  | .refused _ => false

/-- The answer is this fault. -/
def faults (r : Result) (f : Fault) : Bool :=
  match r with
  | .next _ => false
  | .fault g => g == f
  | .refused _ => false

/-- A message in BUF with its length, after reset. -/
def message (bytes : List Byte) : State :=
  { State.reset with buf := Memory.writeBytes [] 0 bytes, msgLen := BitVec.ofNat 32 bytes.length }

/-- The same state with a context of these tables. -/
def withContext (box : Boxes) (s : State) : State :=
  { s with sbox := box, sboxWritten := true, ctxValid := true }

/-- The first `n` bytes of BUF. -/
def bytesOf (s : State) (n : Nat) : List (Option Byte) := (List.range n).map (Memory.read s.buf)

/-- A table by its entries, laid out as a list so that the kernel finds an entry quickly. -/
def tableOf (f : Nat → Byte) : SBox := ⟨⟨(List.range 256).map f⟩, by simp⟩

/-- A table of which only these entries are given. -/
def sparse (entries : List (Nat × Byte)) : SBox := tableOf fun e => (entries.lookup e).getD 0

/-- Of the S-boxes of the all-zero key (95_test_vectors.md, appendix A), the entries that the sixteen rounds on the block of
eight bytes 08 read (V11). -/
def zeroKeyBoxes : Boxes := #v[
  sparse [(0x08, 0x07), (0x10, 0x0F), (0x18, 0x17), (0x20, 0x1F)],
  sparse [(0x17, 0x08), (0x36, 0x54), (0x3D, 0x5B), (0x4C, 0x6A)],
  sparse [(0x11, 0x8F), (0x62, 0x76), (0xB5, 0x73)],
  sparse [(0x15, 0x14), (0x28, 0x27), (0x98, 0x97), (0x9C, 0x9B)],
  sparse [(0x3E, 0x75), (0x50, 0x4F), (0x76, 0xBF), (0xB9, 0xFA)],
  sparse [(0x08, 0x20), (0x41, 0x69), (0x42, 0x6A), (0xD7, 0xFF)],
  sparse [(0x0A, 0x66), (0x56, 0x51), (0x72, 0x46), (0xF8, 0xAF)],
  sparse [(0x4B, 0x4A), (0x91, 0x90), (0x9D, 0x28), (0xE2, 0xE1)],
  sparse [(0x9F, 0x19), (0xB7, 0xEA), (0xD1, 0x36), (0xD9, 0x9D)],
  sparse [(0x38, 0x96), (0x6C, 0x6B), (0xA7, 0xED), (0xEF, 0x8B)],
  sparse [(0x00, 0xC3), (0x3F, 0x70), (0xDC, 0x61), (0xEB, 0x39)],
  sparse [(0x0C, 0x0B), (0x64, 0x63), (0xD3, 0xD2), (0xEF, 0x93)],
  sparse [(0x00, 0x85), (0x1D, 0x10), (0x4F, 0xC5), (0xA7, 0x59)],
  sparse [(0x65, 0x28), (0x74, 0xDA), (0x80, 0x36), (0xA7, 0x7F)],
  sparse [(0x47, 0xE0), (0x79, 0x9D), (0x82, 0xDD), (0xD6, 0x34)],
  sparse [(0x10, 0x0F), (0x54, 0xC0), (0x6E, 0xFA), (0xA9, 0x07)]]

/-- Box 0 of the all-zero key: `S[e] = e - 1` modulo 256 (V1). -/
def rotatedBox : SBox := tableOf fun e => BitVec.ofNat 8 (e + 255)

/-- A block of eight equal bytes. -/
def equalBlock (v : Byte) : Block := ⟨⟨v, v, v, v⟩, ⟨v, v, v, v⟩⟩

/-- The block 00 01 02 03 04 05 06 07. -/
def risingBlock : Block := ⟨⟨0x00, 0x01, 0x02, 0x03⟩, ⟨0x04, 0x05, 0x06, 0x07⟩⟩

/-- ZK's encryption of eight bytes 08 (V12). -/
def cipherBlock : Block := ⟨⟨0xA9, 0xC5, 0xA2, 0x44⟩, ⟨0xB9, 0xC1, 0x75, 0xAB⟩⟩

/-- A state whose only context is box 0 of the all-zero key, with this BLOCK. -/
def roundState (x : Block) : State :=
  withContext (Vector.replicate 16 rotatedBox) { State.reset with block := x }

/-- A state with the boxes of V11 and this BLOCK. -/
def blockState (x : Block) : State := withContext zeroKeyBoxes { State.reset with block := x }

/-- The key bytes 00 01 02 ... 1F (the key SK). -/
def risingKey : Key := ⟨⟨(List.range 32).map (BitVec.ofNat 8)⟩, by simp⟩

/-! ## Well-formed command words (30_encoding.md R70, R71) -/

theorem test_wellFormed_accepts : CmdFields.wellFormed ⟨0x4, 0xF, 0⟩ = true := by decide

theorem test_wellFormed_refuses_opcode : CmdFields.wellFormed ⟨0xB, 0, 0⟩ = false := by decide

theorem test_wellFormed_refuses_round : CmdFields.wellFormed ⟨0x0, 1, 0⟩ = false := by decide

theorem test_wellFormed_refuses_reserved : CmdFields.wellFormed ⟨0x0, 0, 1⟩ = false := by decide

/-! ## Decode, from words written out by R70 and R71 (V17) -/

theorem test_decode_nop : decode 0b00000000000000000000000000000000 = .ok .nop := by decide
theorem test_decode_mkctx : decode 0b00000000000000000000000000000001 = .ok .mkctx := by decide
theorem test_decode_pad : decode 0b00000000000000000000000000000010 = .ok .pad := by decide
theorem test_decode_unpad : decode 0b00000000000000000000000000000011 = .ok .unpad := by decide
theorem test_decode_encr : decode 0b00000000000000000000000000010100 = .ok (.encr 1) := by decide
theorem test_decode_decr : decode 0b00000000000000000000000011110101 = .ok (.decr 15) := by decide
theorem test_decode_encb : decode 0b00000000000000000000000000000110 = .ok .encb := by decide
theorem test_decode_decb : decode 0b00000000000000000000000000000111 = .ok .decb := by decide
theorem test_decode_enc : decode 0b00000000000000000000000000001000 = .ok .enc := by decide
theorem test_decode_dec : decode 0b00000000000000000000000000001001 = .ok .dec := by decide
theorem test_decode_clrctx : decode 0b00000000000000000000000000001010 = .ok .clrctx := by decide
theorem test_decode_reserved : decode 0x0000000B = .error .reservedOpcode ∧ decode 0x0000000F = .error .reservedOpcode := by
  decide
theorem test_decode_round : decode 0x00000010 = .error .nonzeroRound ∧ decode 0x00000016 = .error .nonzeroRound := by decide
theorem test_decode_bits : decode 0x00000104 = .error .nonzeroReserved ∧ decode 0x80000001 = .error .nonzeroReserved := by
  decide
theorem test_decode_table : decodeTableWord 32 0x00000014 = some (.encr 1) ∧ decodeTableWord 32 0xFFFFFFFF = none := by decide

/-! ## NOP and CLRCTX (V18, V19) -/

theorem test_nop_status : answers (step (State.reset.withFetchWord 32 0x00000000)) (·.statusWord == 0x00000002) = true := by
  decide

theorem test_nop_clears_error : answers (exec .nop (withContext zeroKeyBoxes { State.reset with err := 1 }))
    (·.statusWord == 0x00000006) = true := by decide

theorem test_clrctx_status : answers (exec .clrctx (withContext zeroKeyBoxes State.reset)) (fun t =>
    t.statusWord == 0x00000002 && t.sboxWord 0 0xFFFFFFFF == 0) = true := by decide +kernel

theorem test_illegal_word : answers (step (State.reset.withFetchWord 32 0x00000016)) (·.statusWord == 0x00000062) = true := by
  decide

/-! ## The generator (V1, V2) and MKCTX (V4) -/

/-- Box 1 of the all-zero key starts from 31 bytes 01 and one byte 00, and from the index 1F. -/
theorem test_keyStep_zero : (workingKey zeroKey 1)[0] = 0x01 ∧ (workingKey zeroKey 1)[30] = 0x01 ∧
    (workingKey zeroKey 1)[31] = 0x00 ∧ startIndex (workingKey zeroKey 1) = 0x1F := by decide +kernel

/-- SK's box 2: the working key begins 01 00 07 and ends 1D 1F, the index is 27. -/
theorem test_keyStep_rising : (workingKey risingKey 2)[0] = 0x01 ∧ (workingKey risingKey 2)[2] = 0x07 ∧
    (workingKey risingKey 2)[30] = 0x1D ∧ (workingKey risingKey 2)[31] = 0x1F ∧
    startIndex (workingKey risingKey 2) = 0x27 := by decide +kernel

/-- The first three iterations for the all-zero key, worked out by hand under V1. -/
theorem test_shuffle_zero : ((([0, 1, 2] : List Byte).foldl (shuffleStep zeroKey) (0, identityBox)).2.toList.take 4) =
    [0x02, 0x00, 0x01, 0x03] := by decide +kernel

/-- The first four iterations for SK, by hand from R104: `j` goes F0, 00, 01, 04, 09. -/
theorem test_shuffle_rising : (let r := ([0, 1, 2, 3] : List Byte).foldl (shuffleStep risingKey) (0xF0, identityBox)
    (r.1, r.2.entry 2, r.2.entry 3, r.2.entry 4, r.2.entry 9)) = (0x09, 0x04, 0x09, 0x02, 0x03) := by decide +kernel

/-- Entries of the contexts of the two test keys (V3), through the packed generator. -/
theorem test_gen_zero : ((gen zeroKey)[(1 : Fin 16)])[(0 : Fin 256)].toNat = 0x10 ∧
    ((gen zeroKey)[(15 : Fin 16)])[(0 : Fin 256)].toNat = 0x40 := by
  rw [gen_entry, gen_entry]
  decide +kernel

theorem test_gen_rising : ((gen risingKey)[(0 : Fin 16)])[(2 : Fin 256)].toNat = 0x42 ∧
    ((gen risingKey)[(5 : Fin 16)])[(0 : Fin 256)].toNat = 0xF9 ∧
    ((gen risingKey)[(15 : Fin 16)])[(0 : Fin 256)].toNat = 0x2F := by
  rw [gen_entry, gen_entry, gen_entry]
  decide +kernel

theorem test_mkctx_short_key : answers (exec .mkctx { State.reset with key := risingKey, keyLen := 31 }) (fun t =>
    t.statusWord == 0x00000012 && t.key[7] == 0 && !t.sboxWritten) = true := by decide +kernel

theorem test_mkctx_whole_length : answers (exec .mkctx (withContext zeroKeyBoxes { State.reset with keyLen := 0x120 })) (fun t =>
    t.statusWord == 0x00000016 && t.sboxWritten) = true := by decide +kernel

/-! ## PAD and UNPAD (V6, V7, V8) -/

theorem test_pad_five : answers (exec .pad (message [1, 2, 3, 4, 5])) (fun t =>
    t.msgLen == 8 && bytesOf t 9 == [some 1, some 2, some 3, some 4, some 5, some 3, some 3, some 3, none]) = true := by decide

theorem test_pad_full : answers (exec .pad { State.reset with msgLen := 4096 }) (fun t =>
    t.statusWord == 0x00000052 && t.msgLen == 4096 && t.buf.isEmpty) = true := by decide

theorem test_unpad_five : answers (exec .unpad (message [0x11, 0x22, 0x33, 0x44, 0x55, 0x66, 0x77, 0x05])) (fun t =>
    t.msgLen == 3 && t.err == 0 && Memory.read t.buf 7 == some 0x05) = true := by decide

theorem test_unpad_too_long : answers (exec .unpad (message [4, 4, 4])) (fun t => t.msgLen == 3 && t.err == 3) = true := by
  decide

/-! ## One round: ENCR and DECR (V9, V10) -/

theorem test_encr_rising : answers (exec (.encr 0) (roundState risingBlock)) (fun t =>
    t.block == ⟨⟨0x04, 0x05, 0x06, 0x07⟩, ⟨0x15, 0x0F, 0x0A, 0x00⟩⟩ && t.statusWord == 0x00000006) = true := by decide +kernel

theorem test_encr_wraps : answers (exec (.encr 15) (roundState (equalBlock 0xFF))) (fun t =>
    t.block == ⟨⟨0xFF, 0xFF, 0xFF, 0xFF⟩, ⟨0x04, 0x03, 0x02, 0x01⟩⟩) = true := by decide +kernel

theorem test_decr_rising : answers (exec (.decr 0) (roundState risingBlock)) (fun t =>
    t.block == ⟨⟨0x01, 0x07, 0x06, 0xF8⟩, ⟨0x00, 0x01, 0x02, 0x03⟩⟩) = true := by decide +kernel

theorem test_decr_no_context : answers (exec (.decr 0) State.reset) (·.statusWord == 0x00000042) = true := by decide

/-! ## The block driver: ENCB, DECB, ENC, DEC (V11, V12, V14, V15) -/

theorem test_encb_eights : answers (exec .encb (blockState (equalBlock 0x08))) (fun t => t.block == cipherBlock) = true := by
  decide +kernel

theorem test_decb_eights : answers (exec .decb (blockState cipherBlock)) (fun t => t.block == equalBlock 0x08) = true := by
  decide +kernel

/-- Scenario 1: the empty message. -/
theorem test_enc_empty : answers (exec .enc (withContext zeroKeyBoxes State.reset)) (fun t =>
    t.msgLen == 8 && bytesOf t 9 ==
      [some 0xA9, some 0xC5, some 0xA2, some 0x44, some 0xB9, some 0xC1, some 0x75, some 0xAB, none]) = true := by
  decide +kernel

theorem test_enc_full : answers (exec .enc (withContext zeroKeyBoxes { State.reset with msgLen := 4096 })) (fun t =>
    t.statusWord == 0x00000056) = true := by decide +kernel

theorem test_dec_empty : answers (exec .dec (withContext zeroKeyBoxes (message cipherBlock.toBytes))) (fun t =>
    t.msgLen == 0 && t.err == 0 && bytesOf t 8 == List.replicate 8 (some 0x08)) = true := by decide +kernel

theorem test_dec_bad_length : answers (exec .dec (withContext zeroKeyBoxes { State.reset with msgLen := 12 })) (fun t =>
    t.statusWord == 0x00000026 && t.msgLen == 12) = true := by decide +kernel

/-! ## The bus, reset and the faults (V19, V20, V21) -/

theorem test_read_bufSize : answers (step (State.reset.withHost [hostRead 0x018])) (·.returned == [0x00001000]) = true := by
  decide

theorem test_write_buf : answers (step (State.reset.withHost [hostWrite 0x10000 0x44434241])) (fun t =>
    bytesOf t 5 == [some 0x41, some 0x42, some 0x43, some 0x44, none] && Memory.wf t.buf) = true := by decide

theorem test_read_beyond_buf : answers (step (State.reset.withHost [hostRead 0x11000])) (·.returned == [0]) = true := by decide

theorem test_key_window : answers (step (State.reset.withHost [hostWrite 0x03C 0x1F1E1D1C])) (fun t =>
    t.key[28] == 0x1C && t.key[31] == 0x1F && t.key[0] == 0) = true := by decide +kernel

theorem test_write_while_busy : answers (step ((State.reset.accept 0).withHost [hostWrite 0x00C 5])) (fun t =>
    t.msgLen == 0 && t.statusWord == 0x00000001) = true := by decide

theorem test_bus_error : faults (step (State.reset.withHost [hostRead 0x006])) .busError = true := by decide

theorem test_unwritten_read : faults (exec .unpad { State.reset with msgLen := 8 }) .unwrittenRead = true := by decide

/-- A line of the notation may fall before or after a pending command completes (R16, R77). -/
theorem test_write_beside_pending :
    answers (step ((State.reset.accept 0).withHost (HostLine.wr 0x00C 5).expand)) (fun t => t.busy && t.msgLen == 0) = true ∧
    answers (step ((State.reset.accept 0).withHost (HostLine.wr 0x00C 5 true).expand)) (fun t =>
      !t.busy && t.host.length == 1) = true := by decide

theorem test_reset_pulse : answers (step (State.withHost [⟨.rst, false⟩] { message [7] with busy := true, pending := some 8 }))
    (fun t => t.statusWord == 0 && t.msgLen == 0 && t.buf.isEmpty && t.pending.isNone) = true := by decide

theorem test_write_in_the_middle : Memory.write [(1, 0xAA), (5, 0xBB)] 3 0xCC = [(1, 0xAA), (3, 0xCC), (5, 0xBB)] := by decide

/-! ## Witnesses: concrete states and operands that meet the hypotheses of each statement that has any -/

/-- A state with a context whose tables are all zero, and this message. Sixteen rounds with it leave every block as it is. -/
def zeroTables (bytes : List Byte) : State := withContext (Vector.replicate 16 zeroBox) (message bytes)

theorem witness_IllegalWordsCompleteWithCodeSix :
    decode 0xB = .error .reservedOpcode ∧ decode 0x100 = .error .nonzeroReserved ∧ decode 0x10 = .error .nonzeroRound ∧
    State.reset.busy = false ∧ (State.reset.accept 0xB).coreHasTurn ∧ (State.reset.accept 0xB).pending = some 0xB :=
  ⟨by decide, by decide, by decide, rfl, .inl rfl, rfl⟩

theorem witness_ResetPulseAbandonsTheCommand :
    (State.withHost [⟨.rst, false⟩] (State.reset.accept 8)).host = ⟨.rst, false⟩ :: [] ∧
    (State.withHost [⟨.rst, true⟩] State.reset).host = ⟨.rst, true⟩ :: [] ∧
    (State.withHost [⟨.rst, true⟩] State.reset).pending = none := ⟨rfl, rfl, rfl⟩

theorem witness_StepRunsTheDecodedCommand :
    (State.reset.withFetchWord 32 4).coreHasTurn ∧ (State.reset.withFetchWord 32 4).pending = some 4 ∧
    decode 4 = .ok (.encr 0) := ⟨.inl rfl, by decide, by decide⟩

theorem witness_CmdWriteIsAcceptedWhenIdle : State.reset.busy = false ∧ (State.reset.accept 1).busy = true := ⟨rfl, rfl⟩

theorem witness_WritesWhileBusyAreDropped :
    (State.reset.accept 1).busy = true ∧ (0x000 : Word).toNat % 4 = 0 ∧ (0x10000 : Word).toNat % 4 = 0 := ⟨rfl, rfl, rfl⟩

theorem witness_BusErrorExactlyOnBadAccess :
    State.reset.pending = none ∧ faults (step (State.reset.withHost [⟨.read 2 0xF, false⟩])) .busError = true ∧
    faults (step (State.reset.withHost [⟨.write 0 0 0x7, false⟩])) .busError = true := by decide

theorem witness_PendingCommandCompletes :
    (State.reset.accept 3).coreHasTurn ∧ (State.reset.accept 3).pending = some 3 ∧
    faults (step { State.reset.accept 3 with msgLen := 1 }) .unwrittenRead = true := ⟨.inl rfl, rfl, by decide⟩

/-- With no read that finds the command in progress, and with two. -/
theorem witness_CommandLineRunsToItsStatus : State.reset.busy = false ∧ State.reset.pending = none ∧
    (1 : Word).toNat = 1 + 4 * State.reset.ctxValid.toNat ∧ ∀ m, m = 0 ∨ m = 2 →
    ∃ t, exec .nop { State.reset with
      pending := some (encode .nop), busy := true, done := false, err := 0, host := hostPoll 0 ++ [],
      returned := List.replicate m 1 ++ State.reset.returned, draws := State.reset.draws + m } = .next t :=
  ⟨rfl, rfl, rfl, fun _ _ => ⟨_, rfl⟩⟩

theorem witness_ReadsHaveNoSideEffect : (0xFFFFFFFC : Word).toNat % 4 = 0 := by decide

theorem witness_RegistersReadBack : State.reset.busy = false := rfl

theorem witness_RegisterWritesStore : State.reset.busy = false := rfl

theorem witness_BufSizeIsConstant : answers (step State.reset) (fun _ => true) = true := by decide

theorem witness_ReservedAddressesReadZero : State.reset.reservedAddr 0x1C ∧ State.reset.reservedAddr 0x40 ∧
    State.reset.reservedAddr 0xFFC ∧ State.reset.reservedAddr 0x2000 ∧ State.reset.reservedAddr 0xFFFC ∧
    State.reset.reservedAddr 0x11000 ∧ State.reset.reservedAddr 0xFFFFFFFC ∧ (0xFFFFFFFC : Word).toNat % 4 = 0 := by
  unfold State.reservedAddr
  decide

theorem witness_KeyWindowIsWriteOnly : 7 < 8 ∧ State.reset.busy = false := ⟨by decide, rfl⟩

theorem witness_SboxWindowReadsTheBoxes :
    (zeroTables []).busy = false ∧ (zeroTables []).sboxWritten = true ∧ State.reset.sboxWritten = false := ⟨rfl, rfl, rfl⟩

theorem witness_BufWindowReadsAndWrites :
    State.reset.busy = false ∧ Config.bufBytesLegal State.reset.bufBytes = true ∧ 4 * 1023 < State.reset.bufBytes ∧
    Memory.read (message [7]).buf (4 * 0 + 0) = some 7 := by decide

theorem witness_ReadsWhileBusy :
    (State.reset.accept 1).Inv ∧ (State.reset.accept 1).busy = true ∧ (State.reset.accept 1).reservedAddr 0x1C :=
  ⟨⟨rfl, fun _ h => (List.not_mem_nil h).elim, ⟨rfl, fun _ => ⟨rfl, rfl⟩, by decide⟩, (fun h => nomatch h), by decide⟩, rfl,
    .inl rfl⟩

theorem witness_EveryStepKeepsTheInvariant :
    (State.reset.accept 1).Inv ∧ answers (step (State.reset.accept 1)) (fun t => t.err == 1) = true :=
  ⟨witness_ReadsWhileBusy.1, by decide⟩

/-- A state whose context is the generator's on the all-zero key. -/
theorem witness_ValidContextIsSixteenPermutations :
    (withContext (gen zeroKey) State.reset).Inv ∧ (withContext (gen zeroKey) State.reset).ctxValid = true :=
  ⟨⟨rfl, fun _ h => (List.not_mem_nil h).elim, ⟨rfl, (fun h => nomatch h), by decide⟩, fun _ => ⟨rfl, zeroKey, rfl⟩,
    by decide⟩, rfl⟩

theorem witness_OnlyMkctxClrctxAndResetTouchTheContext :
    answers (step ((zeroTables []).accept 0xA)) (fun t => t.ctxValid != (zeroTables []).ctxValid) = true ∧
    answers (step ((zeroTables []).withHost [⟨.rst, false⟩])) (fun t => t.ctxValid != (zeroTables []).ctxValid) = true := by
  decide

/-- Three steps that are no successful MKCTX: nothing pending, another command, MKCTX with a wrong KEY_LEN. -/
theorem witness_KeyIsNeverReturned :
    State.reset.pending = none ∧ decode 0 ≠ .ok .mkctx ∧ (State.reset.accept 0).pending = some 0 ∧
    (State.reset.accept 1).keyLen ≠ 32 := by decide

theorem witness_HiddenRegistersAreUnobservable :
    { State.reset with rnd := 5, blkIdx := 9 }.eraseHidden = State.reset.eraseHidden ∧
    { State.reset with rnd := 5, blkIdx := 9 } ≠ State.reset := ⟨rfl, fun h => absurd (congrArg State.rnd h) (by decide)⟩

theorem witness_OnlyUnpadEncDecCanFault :
    faults (exec .unpad { State.reset with msgLen := 1 }) .unwrittenRead = true ∧
    faults (exec .enc { zeroTables [] with msgLen := 1 }) .unwrittenRead = true ∧
    faults (exec .dec { zeroTables [] with msgLen := 8 }) .unwrittenRead = true := by decide

theorem witness_CodesEachCommandCompletesWith : ∃ t, exec .pad State.reset = .next t := ⟨_, rfl⟩

/-- One failing command for each of the statement's three cases. -/
theorem witness_FailedCommandsArePrecise :
    answers (exec .encb State.reset) (fun t => t.err == 4) = true ∧
    answers (exec .mkctx State.reset) (fun t => t.err == 1) = true ∧
    answers (exec .dec (zeroTables (List.replicate 8 0))) (fun t => t.err == 3) = true := by decide +kernel

theorem witness_ShuffleIteration :
    ((3 : Fin 32).val = ((identityBox[(2 : Byte).toNat]'(2 : Byte).isLt).toNat +
      (identityBox[(1 : Byte).toNat]'(1 : Byte).isLt).toNat) % 32) ∧
    ∃ j' t', shuffleStep risingKey (1, identityBox) 2 = (j', t') := ⟨by decide +kernel, _, _, rfl⟩

theorem witness_MkctxBuildsTheContext : { State.reset with keyLen := 32 }.keyLen = 32 := rfl

theorem witness_MkctxRejectsOtherKeyLengths :
    { State.reset with keyLen := 31 }.keyLen ≠ 32 ∧ { State.reset with keyLen := 33 }.keyLen ≠ 32 ∧
    { State.reset with keyLen := 0x120 }.keyLen ≠ 32 := by decide

theorem witness_MkctxConsumesTheKey : { State.reset with keyLen := 32, key := risingKey }.keyLen = 32 := rfl

/-- The last length that still fits, and the first that does not. -/
theorem witness_PadAppendsOrReportsCapacity :
    { State.reset with msgLen := 4095 }.msgLen.toNat + padValue 4095 ≤ State.reset.bufSize.toNat ∧
    State.reset.bufSize.toNat < { State.reset with msgLen := 4096 }.msgLen.toNat + padValue 4096 := by decide

/-- A state for each outcome of UNPAD, at the values where the clauses meet. -/
theorem witness_UnpadOutcomes :
    State.reset.bufSize.toNat < { State.reset with msgLen := 4097 }.msgLen.toNat ∧ State.reset.msgLen.toNat = 0 ∧
    Memory.read { State.reset with msgLen := 4096 }.buf 4095 = none ∧
    answers (exec .unpad (message [0])) (fun t => t.err == 3) = true ∧
    answers (exec .unpad (message [3, 3, 3])) (fun t => t.err == 0 && t.msgLen == 0) = true ∧
    answers (exec .unpad (message [4, 4, 4])) (fun t => t.err == 3) = true := by decide

theorem witness_UnpadTakesOffTheLastByte :
    (message [3, 3, 3]).msgLen.toNat ≤ (message [3, 3, 3]).bufSize.toNat ∧
    Memory.read (message [3, 3, 3]).buf ((message [3, 3, 3]).msgLen.toNat - 1) = some 3 ∧ 1 ≤ (3 : Byte).toNat ∧
    (3 : Byte).toNat ≤ (message [3, 3, 3]).msgLen.toNat := by decide

theorem witness_PadThenUnpadRestores : answers (exec .pad (message [1, 2, 3, 4, 5])) (fun t => t.err == 0) = true := by decide

theorem witness_EncrAppliesOneRound : (roundState risingBlock).ctxValid = true ∧
    (0x04 : Byte) = risingBlock.right.b0 ∧ (0x09 : Byte) = 0x04 + risingBlock.right.b1 ∧
    (0x0F : Byte) = 0x09 + risingBlock.right.b2 ∧ (0x16 : Byte) = 0x0F + risingBlock.right.b3 := ⟨rfl, by decide⟩

theorem witness_DecrAppliesOneRound : (roundState (equalBlock 0xFF)).ctxValid = true ∧
    (0xFF : Byte) = (equalBlock 0xFF).left.b0 ∧ (0xFE : Byte) = 0xFF + (equalBlock 0xFF).left.b1 ∧
    (0xFD : Byte) = 0xFE + (equalBlock 0xFF).left.b2 ∧ (0xFC : Byte) = 0xFD + (equalBlock 0xFF).left.b3 := ⟨rfl, by decide⟩

theorem witness_CipherCommandsNeedAContext : State.reset.ctxValid = false := rfl

theorem witness_BlockCommandsTransformBlock : (blockState risingBlock).ctxValid = true := rfl

theorem witness_BlockCommandEqualsItsRounds : (blockState risingBlock).ctxValid = true := rfl

/-- Every byte of a message that was written byte by byte is written. -/
theorem witness_messageWritten : (zeroTables [1, 2, 3]).messageWritten := by
  have h : ∀ a, a < 3 → (Memory.read (zeroTables [1, 2, 3]).buf a).isSome = true := by decide
  exact h

theorem witness_EncEncryptsThePaddedMessage : (zeroTables [1, 2, 3]).ctxValid = true ∧
    (zeroTables [1, 2, 3]).msgLen.toNat + padValue (zeroTables [1, 2, 3]).msgLen.toNat ≤
      (zeroTables [1, 2, 3]).bufSize.toNat ∧
    (zeroTables [1, 2, 3]).messageWritten := ⟨rfl, by decide, witness_messageWritten⟩

/-- The first length that does not fit, and a message of one byte never written. -/
theorem witness_EncStops : (zeroTables []).ctxValid = true ∧
    { zeroTables [] with msgLen := 4096 }.bufSize.toNat <
      { zeroTables [] with msgLen := 4096 }.msgLen.toNat + padValue { zeroTables [] with msgLen := 4096 }.msgLen.toNat ∧
    { zeroTables [] with msgLen := 1 }.msgLen.toNat + padValue { zeroTables [] with msgLen := 1 }.msgLen.toNat ≤
      { zeroTables [] with msgLen := 1 }.bufSize.toNat ∧
    ¬ { zeroTables [] with msgLen := 1 }.messageWritten :=
  ⟨rfl, by decide, by decide, fun h => absurd (h 0 (by decide)) (by decide)⟩

theorem witness_CiphertextLength :
    answers (exec .enc (zeroTables [1, 2, 3])) (fun t => t.err == 0 && t.msgLen == 8) = true := by decide +kernel

theorem witness_DecDecryptsAndUnpads : (zeroTables cipherBlock.toBytes).ctxValid = true ∧
    (zeroTables cipherBlock.toBytes).msgLen.toNat ≤ (zeroTables cipherBlock.toBytes).bufSize.toNat ∧
    (zeroTables cipherBlock.toBytes).msgLen.toNat ≠ 0 ∧ (zeroTables cipherBlock.toBytes).msgLen.toNat % 8 = 0 ∧
    (zeroTables cipherBlock.toBytes).messageWritten := by
  have h : ∀ a, a < 8 → (Memory.read (zeroTables cipherBlock.toBytes).buf a).isSome = true := by decide
  exact ⟨rfl, by decide, by decide, by decide, h⟩

/-- DEC's outcomes, at the values where the clauses meet. -/
theorem witness_DecStops :
    answers (exec .dec { State.reset with msgLen := 5 }) (fun t => t.err == 4) = true ∧
    answers (exec .dec { zeroTables [] with msgLen := 4100 }) (fun t => t.err == 5) = true ∧
    answers (exec .dec (zeroTables [])) (fun t => t.err == 2) = true ∧
    answers (exec .dec { zeroTables [] with msgLen := 4092 }) (fun t => t.err == 2) = true ∧
    faults (exec .dec { zeroTables [] with msgLen := 4096 }) .unwrittenRead = true := by decide +kernel

/-- A message of three bytes and a key of the right length. -/
theorem witness_EncryptThenDecryptRestores :
    { message [1, 2, 3] with keyLen := 32 }.keyLen = 32 ∧
    { message [1, 2, 3] with keyLen := 32 }.msgLen.toNat + padValue { message [1, 2, 3] with keyLen := 32 }.msgLen.toNat ≤
      { message [1, 2, 3] with keyLen := 32 }.bufSize.toNat ∧
    { message [1, 2, 3] with keyLen := 32 }.messageWritten := by
  have h : ∀ a, a < 3 → (Memory.read (message [1, 2, 3]).buf a).isSome = true := by decide
  exact ⟨rfl, by decide, h⟩

/-- Two different states with one key and one message, whose MKCTX and ENC both succeed. -/
theorem witness_EncryptThenDecryptRestores_determinism :
    { message [] with keyLen := 32 }.key = { message [] with keyLen := 32, blkIdx := 1 }.key ∧
    (∃ t, execAll [.mkctx, .enc] { message [] with keyLen := 32 } = some t ∧ t.err = 0) ∧
    ∃ t, execAll [.mkctx, .enc] { message [] with keyLen := 32, blkIdx := 1 } = some t ∧ t.err = 0 := by
  have go : ∀ n : Word, ∃ t, execAll [.mkctx, .enc] { message [] with keyLen := 32, blkIdx := n } = some t ∧ t.err = 0 := by
    intro n
    have hm : exec .mkctx { message [] with keyLen := 32, blkIdx := n } = .next (State.complete .success
        (State.leaveGenerator (State.clearKey { message [] with
          keyLen := 32, blkIdx := n, sbox := gen zeroKey, sboxWritten := true, ctxValid := true }))) := by
      rw [exec]; unfold execMkctx; rw [if_neg (fun h => h rfl)]; rfl
    simp only [execAll, hm]
    generalize hs : State.complete .success _ = s
    have hl : s.msgLen = 0 := by rw [← hs]; rfl
    rcases execEnc_fits (s := s) (by rw [← hs]; rfl)
      (by rw [← hs]; exact (by decide : (0 : Word).toNat + padValue (0 : Word).toNat ≤ (4096 : Word).toNat)) with ⟨h, _⟩ | ⟨m, _, _, h⟩
    · exact absurd (fun a ha => absurd ha (by rw [hl]; simp)) h
    · exact ⟨_, by rw [h], rfl⟩
  exact ⟨rfl, go 0, go 1⟩

/-- Two buffers that differ in block 0 of two, each decrypting to a padded message. -/
theorem witness_BlastRadiusIsOneBlock :
    (∀ a, a / 8 ≠ 0 →
      Memory.read (Memory.write (zeroTables (List.replicate 16 8)).buf 3 9) a =
        Memory.read (zeroTables (List.replicate 16 8)).buf a) ∧
    answers (exec .dec (zeroTables (List.replicate 16 8))) (fun t => t.err == 0) = true ∧
    answers (exec .dec { zeroTables (List.replicate 16 8) with
      buf := Memory.write (zeroTables (List.replicate 16 8)).buf 3 9 }) (fun t => t.err == 0) = true := by
  refine ⟨fun a ha => Memory.read_write_other _ _ (by omega), ?_, ?_⟩ <;> decide +kernel

end Sys2Proof.Tests
end

section
/-! PROOF. STATUS and BUF_SIZE as the host sees them, the constancy of BUF_SIZE, and the values after reset (10_state.md R23,
R38, R45). -/

namespace Sys2Proof.Machine

/-! ## The two read-only registers -/

theorem State.region_status (s : State) : s.region 0x004 = .status := rfl

theorem State.region_bufSize (s : State) : s.region 0x018 = .bufSize := rfl

/-- A write at a word address of a region that ignores writes changes nothing, whether it is ignored or dropped (R242). -/
theorem State.writesTo_of_ignored {s : State} {addr w : Word} (h : addr.toNat % 4 = 0)
    (hw : s.writeRegion (s.region addr) w = s) : s.writesTo addr w s := by
  cases hs : s.busy with
  | true => exact State.writesTo_of_busy h hs
  | false =>
    have idle := State.writesTo_of_idle (w := w) h hs
    rwa [hw] at idle

/-- BUF_SIZE is exact also while a command is in progress (R38). -/
theorem State.readsAs_bufSize (s : State) : s.readsAs 0x018 s.bufSize :=
  State.readsAs_eq (by decide) (by rw [s.region_bufSize]; rfl)

theorem State.writesTo_bufSize (s : State) (w : Word) : s.writesTo 0x018 w s :=
  State.writesTo_of_ignored (by decide) (by rw [s.region_bufSize]; rfl)

/-- STATUS is exact also while a command is in progress (R23). -/
theorem State.readsAs_status (s : State) : s.readsAs 0x004 s.statusWord :=
  State.readsAs_eq (by decide) (by rw [s.region_status]; rfl)

theorem State.writesTo_status (s : State) (w : Word) : s.writesTo 0x004 w s :=
  State.writesTo_of_ignored (by decide) (by rw [s.region_status]; rfl)

/-- The layout of STATUS as a sum of its fields (R23). -/
theorem State.statusWord_toNat (s : State) :
    s.statusWord.toNat = s.busy.toNat + 2 * s.done.toNat + 4 * s.ctxValid.toNat + 16 * s.err.toNat := by
  unfold State.statusWord
  generalize s.busy = b, s.done = d, s.ctxValid = c, s.err = e
  revert b d c e
  decide

theorem State.statusWord_reset : State.reset.statusWord = 0 := by decide

/-! ## BUF_SIZE over a step -/

theorem hostAccess_bufSize {a : HostAccess} {s t : State} (h : hostAccess a s = .next t) : t.bufSize = s.bufSize := by
  rcases hostAccess_next h with ⟨_, _, _, _, _, _, rfl⟩ | ⟨_, _, _, _, _, _, rfl⟩ | ⟨_, w, _, _, _, _, rfl⟩ | ⟨_, rfl⟩
  case inr.inr.inl =>
    obtain ⟨_, hsize, _⟩ := s.writeRegion_frame (s.region _) w
    exact hsize
  all_goals rfl

theorem coreStep_bufSize {w : Word} {s t : State} (h : coreStep w s = .next t) : t.bufSize = s.bufSize := by
  rcases coreStep_cases w s with ⟨i, _, hi⟩ | ⟨_, _, hi⟩ <;> rw [hi] at h
  · obtain ⟨_, _, hsize, _⟩ := exec_host_fields h
    exact hsize
  · obtain rfl := Host.Outcome.next.inj h
    rfl

theorem step_bufSize {s t : State} (h : step s = .next t) : t.bufSize = s.bufSize := by
  rcases step_turns s with ⟨w, _, _, hs⟩ | ⟨r, rest, _, _, hs⟩ | ⟨_, _, hs⟩ <;> rw [hs] at h
  · exact coreStep_bufSize h
  · exact (hostAccess_bufSize h).trans (s.withHost_bufSize rest)
  · obtain rfl := Host.Outcome.next.inj h
    rfl

/-! ## The statements -/

/-- Settles O17: the bus rules for BUF_SIZE, and each of the three turns a step can be keeps it. -/
theorem bufSizeIsConstant : Obligations.BufSizeIsConstant :=
  ⟨fun s w => ⟨s.readsAs_bufSize, s.writesTo_bufSize w⟩, fun _ _ => step_bufSize⟩

/-- Settles O14: the bus rules for STATUS, and its word as the sum of its fields. -/
theorem statusReadsExactly : Obligations.StatusReadsExactly :=
  fun s => ⟨⟨s.statusWord, s.readsAs_status, s.statusWord_toNat⟩, s.writesTo_status,
    State.statusWord_reset ▸ State.reset.readsAs_status⟩

/-- Settles O5: the fields as `State.reset` gives them, and BUF_SIZE by the bus rule of every state. -/
theorem resetLeavesTheStatedValues : Obligations.ResetLeavesTheStatedValues := by
  have key_zero (n : Fin 32) : State.reset.key[n] = 0 := Vector.getElem_replicate n.isLt
  have size_reads : State.reset.readsAs 0x018 (BitVec.ofNat 32 State.reset.bufBytes) := by
    rw [State.bufBytes, BitVec.ofNat_toNat, BitVec.setWidth_eq]
    exact State.reset.readsAs_bufSize
  exact ⟨rfl, rfl, rfl, rfl, State.statusWord_reset, rfl, rfl, rfl, rfl, key_zero, rfl, Memory.read_nil, size_reads⟩

end Sys2Proof.Machine
end

section
/-! PROOF. The reserved addresses, the SBOX window and the BUF window as the host sees them (20_memory.md R55 to R57). -/

namespace Sys2Proof.Machine

/-! ## Word addresses and lanes -/

/-- The 32-bit wrap of an address keeps its alignment (R53). -/
theorem ofNat_isWordAddress {n : Nat} (h : n % 4 = 0) : (BitVec.ofNat 32 n).toNat % 4 = 0 := by
  rw [BitVec.toNat_ofNat]
  omega

/-- Lane `n` of a word packed from four consecutive bytes of a store `f` is the byte of that lane (R52). -/
theorem byteOf_packWord_lane (f : Nat → Byte) {n : Nat} (h : n < 4) :
    byteOf (packWord (f 0) (f 1) (f 2) (f 3)) n = f n := by
  obtain ⟨h0, h1, h2, h3⟩ := byteOf_packWord (f 0) (f 1) (f 2) (f 3)
  match n with
  | 0 => exact h0
  | 1 => exact h1
  | 2 => exact h2
  | 3 => exact h3
  | _ + 4 => omega

/-! ## The SBOX window -/

theorem Boxes.byteAt_box_entry (x : Boxes) (b : Fin 16) {k : Nat} (h : k < 256) :
    x.byteAt (256 * b.val + k) = (x[b])[k] := by
  have box_index : (256 * b.val + k) / 256 % 16 = b.val := by omega
  have entry_index : (256 * b.val + k) % 256 = k := by omega
  simp [Boxes.byteAt, box_index, entry_index]

theorem State.byteOf_sboxWord {s : State} (h : s.sboxWritten = true) (off : Nat) (d : Word) {n : Nat} (hn : n < 4) :
    byteOf (s.sboxWord off d) n = s.sbox.byteAt (off + n) := by
  rw [State.sboxWord, if_pos h]
  exact byteOf_packWord_lane (fun k => s.sbox.byteAt (off + k)) hn

theorem State.readsAs_sbox {s : State} (hs : s.busy = false) {a : Nat} (h4 : a % 4 = 0) (h : a < 4096) :
    s.readsAs (BitVec.ofNat 32 (0x1000 + a)) (s.sboxWord a (Config.draw s.draws)) :=
  State.readsAs_eq (ofNat_isWordAddress (by omega)) (by simp [s.region_sbox h, State.readValue, hs])

theorem State.writesTo_sbox (s : State) (w : Word) {a : Nat} (h4 : a % 4 = 0) (h : a < 4096) :
    s.writesTo (BitVec.ofNat 32 (0x1000 + a)) w s :=
  State.writesTo_of_ignored (ofNat_isWordAddress (by omega)) (by rw [s.region_sbox h]; rfl)

/-! ## The BUF window -/

/-- Lane `n` of the BUF window is the byte of BUF where it was written, else the lane of the word drawn (R44, R56). -/
theorem State.byteOf_bufWord (s : State) (off : Nat) (d : Word) {n : Nat} (hn : n < 4) :
    byteOf (s.bufWord off d) n = (Memory.read s.buf (off + n)).getD (byteOf d n) :=
  byteOf_packWord_lane (fun k => (Memory.read s.buf (off + k)).getD (byteOf d k)) hn

/-- What a byte reads as after the four bytes of a word are written (R56). -/
theorem Memory.read_writeBytes_word (m : List Host.Cell) (a c : Nat) (w : Word) :
    Memory.read (Memory.writeBytes m a [byteOf w 0, byteOf w 1, byteOf w 2, byteOf w 3]) c =
      if a ≤ c ∧ c < a + 4 then some (byteOf w (c - a)) else Memory.read m c := by
  have lanes : [byteOf w 0, byteOf w 1, byteOf w 2, byteOf w 3] = (List.range 4).map (byteOf w) := rfl
  rw [lanes, Memory.read_writeBytes, List.length_map, List.length_range]
  split
  · rw [List.getElem?_map, List.getElem?_range (by omega), Option.map_some]
  · rfl

/-- What R8 asks of BUF_BYTES, as the three facts it is. -/
theorem bufBytesLegal_iff (n : Nat) :
    Config.bufBytesLegal n = true ↔ n % 8 = 0 ∧ 16 ≤ n ∧ n ≤ 2 ^ 32 - 0x10000 := by
  simp [Config.bufBytesLegal, and_assoc]

theorem State.readsAs_buf {s : State} (hs : s.busy = false) (hb : s.bufBytes ≤ 2 ^ 32 - 0x10000) {a : Nat}
    (h4 : a % 4 = 0) (h : a < s.bufBytes) :
    s.readsAs (BitVec.ofNat 32 (0x10000 + a)) (s.bufWord a (Config.draw s.draws)) :=
  State.readsAs_eq (ofNat_isWordAddress (by omega)) (by simp [s.region_buf h hb, State.readValue, hs])

theorem State.writesTo_buf {s : State} (hs : s.busy = false) (hb : s.bufBytes ≤ 2 ^ 32 - 0x10000) (w : Word) {a : Nat}
    (h4 : a % 4 = 0) (h : a < s.bufBytes) :
    s.writesTo (BitVec.ofNat 32 (0x10000 + a)) w
      { s with buf := Memory.writeBytes s.buf a [byteOf w 0, byteOf w 1, byteOf w 2, byteOf w 3] } := by
  have idle := State.writesTo_of_idle (w := w) (ofNat_isWordAddress (n := 0x10000 + a) (by omega)) hs
  rwa [s.region_buf h hb] at idle

/-! ## The statements -/

/-- Settles O18: a reserved address selects the region that reads 0 and ignores writes. -/
theorem reservedAddressesReadZero : Obligations.ReservedAddressesReadZero := by
  intro s addr w h4 hr
  have region := State.region_reserved h4 hr
  exact ⟨State.readsAs_eq h4 (by rw [region]; rfl), State.writesTo_of_ignored h4 (by rw [region]; rfl)⟩

/-- Settles O20: box `b`, entry `k` is byte `256 b + k` of the window. -/
theorem sboxWindowReadsTheBoxes : Obligations.SboxWindowReadsTheBoxes := by
  intro s b e
  rw [Nat.add_assoc]
  refine ⟨fun hs => ⟨_, State.readsAs_sbox hs (by omega) (by omega), fun hw n => ?_⟩,
    fun w => s.writesTo_sbox w (by omega) (by omega)⟩
  calc
    _ = s.sbox.byteAt (256 * b.val + 4 * e.val + n.val) := State.byteOf_sboxWord hw _ _ n.isLt
    _ = _ := by rw [Nat.add_assoc]; exact s.sbox.byteAt_box_entry b (by omega)

/-- Settles O21: the BUF window lane by lane; a length that is a multiple of 8 leaves no word across the end. -/
theorem bufWindowReadsAndWrites : Obligations.BufWindowReadsAndWrites := by
  intro s q w hs hl hq
  obtain ⟨h8, _, hb⟩ := (bufBytesLegal_iff s.bufBytes).mp hl
  have lane_read (n : Nat) (hn : n < 4) (x : Byte) (hx : Memory.read s.buf (4 * q + n) = some x) :
      byteOf (s.bufWord (4 * q) (Config.draw s.draws)) n = x := by
    rw [s.byteOf_bufWord _ _ hn, hx, Option.getD_some]
  exact ⟨by omega, ⟨_, State.readsAs_buf hs hb (by omega) hq, lane_read⟩,
    _, State.writesTo_buf hs hb w (by omega) hq, fun a => Memory.read_writeBytes_word s.buf (4 * q) a w⟩

end Sys2Proof.Machine
end

section
/-! PROOF. CMD as the host writes it (30_encoding.md R73). -/

namespace Sys2Proof.Machine

theorem State.region_cmd (s : State) : s.region 0x000 = .cmd := rfl

/-- A write to CMD is accepted while no command is in progress (R73). -/
theorem State.writesTo_cmd {s : State} (hs : s.busy = false) (w : Word) : s.writesTo 0x000 w (s.accept w) := by
  have idle := State.writesTo_of_idle (w := w) (addr := 0x000) (by decide) hs
  rwa [s.region_cmd] at idle

/-- Settles O8: an idle block accepts the word, and a busy one drops a write to any word address. -/
theorem cmdWriteIsAcceptedWhenIdle : Obligations.CmdWriteIsAcceptedWhenIdle :=
  fun _ w => ⟨fun idle => State.writesTo_cmd idle w, State.writesTo_of_busy (by decide)⟩

end Sys2Proof.Machine
end

section
/-! PROOF. The S-box generator: the key transform, the shuffle loop, and that it permutes (40_sbox_generator.md R102 to R105,
R109). -/

namespace Sys2Proof.Machine

/-! ## The key transform (R102) -/

theorem keyStep_getElem_lt (wk : Key) (i : Byte) {p : Nat} (h : p < 31) :
    (keyStep wk i)[p]'(Nat.lt_succ_of_lt h) = wk[p + 1]'(Nat.succ_lt_succ h) ^^^ i := by
  simp [keyStep, h]

theorem keyStep_getElem_last (wk : Key) (i : Byte) : (keyStep wk i)[31] = wk[31] := by
  simp [keyStep]

/-! ## What a box starts from (R103) -/

theorem startIndex_toNat (wk : Key) : (startIndex wk).toNat = (wk.toList.map BitVec.toNat).sum % 256 :=
  BitVec.toNat_ofNat _ 8

theorem identityBox_getElem_toNat (e : Fin 256) : identityBox[e].toNat = e.val := by
  simp [identityBox]

/-! ## The boxes are permutations (R109) -/

theorem genBox_perm (wk : Key) : (genBox wk).toList.Perm identityBox.toList :=
  foldl_shuffleStep_perm wk allBytes (startIndex wk, identityBox)

theorem identityBox_nodup : identityBox.toList.Nodup := by
  have injective : Function.Injective fun e : Fin 256 => BitVec.ofNat 8 e.val := fun _ _ h =>
    Fin.ext (by simpa using congrArg BitVec.toNat h)
  rw [identityBox, Vector.toList_ofFn]
  exact List.nodup_ofFn.2 injective

theorem mem_identityBox (v : Byte) : v ∈ identityBox.toList := by
  have h : identityBox[v.toNat]'v.isLt = v := BitVec.eq_of_toNat_eq (identityBox_getElem_toNat ⟨v.toNat, v.isLt⟩)
  exact Vector.mem_toList_iff.2 (h ▸ Vector.getElem_mem v.isLt)

/-- A rearrangement of the identity table holds each byte value at exactly one entry. -/
theorem exists_unique_entry_of_perm {t : SBox} (h : t.toList.Perm identityBox.toList) (v : Byte) :
    ∃ e : Fin 256, t[e] = v ∧ ∀ e' : Fin 256, t[e'] = v → e' = e := by
  have nodup : t.toList.Nodup := h.nodup_iff.2 identityBox_nodup
  obtain ⟨e, he, hv⟩ := Vector.getElem_of_mem (Vector.mem_toList_iff.1 (h.mem_iff.2 (mem_identityBox v)))
  refine ⟨⟨e, he⟩, hv, fun e' he' => Fin.ext ?_⟩
  refine (nodup.getElem_inj_iff (hi := by simp) (hj := by simpa using he)).1 ?_
  simpa using he'.trans hv.symm

/-- Settles O36: the shuffle starts from the identity table and only swaps entries. -/
theorem everyBoxIsAPermutation : Obligations.EveryBoxIsAPermutation :=
  fun wk => exists_unique_entry_of_perm (genBox_perm wk)

/-! ## The shuffle loop (R104) -/

/-- The new index of one iteration, with `k` taken from the old index and table. -/
theorem shuffleStep_index {wk : Key} {jt : Byte × SBox} {i2 : Byte} {k : Fin 32}
    (hk : k.val = ((jt.2[i2.toNat]'i2.isLt).toNat + (jt.2[jt.1.toNat]'jt.1.isLt).toNat) % 32) :
    (shuffleStep wk jt i2).1.toNat = (jt.1.toNat + wk[k].toNat) % 256 := by
  have selected : (shuffleStep wk jt i2).1 = jt.1 + wk[k] := by
    obtain ⟨k, hlt⟩ := k
    obtain rfl : k = _ := hk
    rfl
  rw [selected, BitVec.toNat_add]

/-- One iteration swaps the entries at the entry index and at the new index. -/
theorem shuffleStep_swaps (wk : Key) (jt : Byte × SBox) (i2 : Byte) :
    (shuffleStep wk jt i2).2[i2.toNat]'i2.isLt
      = jt.2[(shuffleStep wk jt i2).1.toNat]'(shuffleStep wk jt i2).1.isLt ∧
    (shuffleStep wk jt i2).2[(shuffleStep wk jt i2).1.toNat]'(shuffleStep wk jt i2).1.isLt
      = jt.2[i2.toNat]'i2.isLt ∧
    ∀ e : Fin 256, e.val ≠ i2.toNat → e.val ≠ (shuffleStep wk jt i2).1.toNat →
      (shuffleStep wk jt i2).2[e] = jt.2[e] :=
  ⟨Vector.getElem_swap_left .., Vector.getElem_swap_right ..,
    fun _ => Vector.getElem_swap_of_ne (hi := i2.isLt) (hj := BitVec.isLt _)⟩

/-- Index and table before iteration `n` of the loop of `genBox wk`. -/
def shuffleRun (wk : Key) (n : Nat) : Byte × SBox :=
  ((List.range n).map (BitVec.ofNat 8)).foldl (shuffleStep wk) (startIndex wk, identityBox)

theorem shuffleRun_succ (wk : Key) (n : Nat) :
    shuffleRun wk (n + 1) = shuffleStep wk (shuffleRun wk n) (BitVec.ofNat 8 n) := by
  simp [shuffleRun, List.range_succ]

/-- `genBox` is the table after the whole run. -/
theorem shuffleRun_256 (wk : Key) : (shuffleRun wk 256).2 = genBox wk := rfl

/-- Settles O60: the indices and tables of the run, each iteration by the two facts about `shuffleStep`. -/
theorem genBoxIsTheShuffleLoop : Obligations.GenBoxIsTheShuffleLoop := by
  intro wk
  refine ⟨fun n => (shuffleRun wk n).1, fun n => (shuffleRun wk n).2, startIndex_toNat wk, identityBox_getElem_toNat,
    fun i2 => ?_, shuffleRun_256 wk⟩
  have entry : (BitVec.ofNat 8 i2.val).toNat = i2.val := Nat.mod_eq_of_lt i2.isLt
  have index := shuffleStep_index (wk := wk) (jt := shuffleRun wk i2.val) (i2 := BitVec.ofNat 8 i2.val)
    (k := ⟨_, Nat.mod_lt _ (by decide)⟩) rfl
  obtain ⟨left, right, others⟩ := shuffleStep_swaps wk (shuffleRun wk i2.val) (BitVec.ofNat 8 i2.val)
  simp only [← shuffleRun_succ, entry] at index left right others
  exact ⟨_, rfl, index, left, right, fun e h => others e (Fin.val_ne_iff.2 h)⟩

/-! ## Box by box (R105) -/

theorem gen_getElem (key : Key) (b : Fin 16) : (gen key)[b] = genBox (workingKey key b.val) := by
  simp [gen]

/-- Settles O34: the lemmas on the key transform, the start index and the identity table; the rest is the model's own
recursion. -/
theorem workingKeyTransforms : Obligations.WorkingKeyTransforms :=
  ⟨fun wk i p => keyStep_getElem_lt wk i p.isLt, keyStep_getElem_last, fun _ => rfl, fun _ _ => rfl, startIndex_toNat,
    identityBox_getElem_toNat, fun _ => rfl, gen_getElem⟩

end Sys2Proof.Machine
end

section
/-! PROOF. The command MKCTX (40_sbox_generator.md R106 to R108). -/

namespace Sys2Proof.Machine

theorem zeroKey_getElem (n : Fin 32) : zeroKey[n] = 0 := Vector.getElem_replicate n.isLt

/-- MKCTX past its check (R107). -/
theorem exec_mkctx_of_keyLen_eq {s : State} (h : s.keyLen = 32) :
    exec .mkctx s = .next (State.complete .success (State.leaveGenerator (State.clearKey
      { s with sbox := gen s.key, sboxWritten := true, ctxValid := true }))) :=
  if_neg (not_not.2 h)

/-- MKCTX on a failed check (R106). -/
theorem exec_mkctx_of_keyLen_ne {s : State} (h : s.keyLen ≠ 32) :
    exec .mkctx s = .next (s.clearKey.complete .invalidKeyLength) :=
  if_pos h

/-- MKCTX consumes the key with either status, and keeps KEY_LEN (R108). -/
theorem exec_mkctx_clears (s : State) :
    ∃ t, exec .mkctx s = .next t ∧ t.key = zeroKey ∧ t.wk = zeroKey ∧ t.keyLen = s.keyLen := by
  by_cases h : s.keyLen = 32
  · exact ⟨_, exec_mkctx_of_keyLen_eq h, rfl, rfl, rfl⟩
  · exact ⟨_, exec_mkctx_of_keyLen_ne h, rfl, rfl, rfl⟩

/-- Settles O40: the second MKCTX finds the zero key and the same KEY_LEN. -/
theorem mkctxConsumesTheKey : Obligations.MkctxConsumesTheKey := by
  intro s
  obtain ⟨t, ht, key, wk, keyLen⟩ := exec_mkctx_clears s
  refine ⟨t, ht, fun n => key ▸ zeroKey_getElem n, fun n => wk ▸ zeroKey_getElem n, keyLen, fun h => ?_⟩
  exact ⟨_, exec_mkctx_of_keyLen_eq (keyLen.trans h), congrArg gen key, rfl⟩

/-- Settles O39: the failing branch of MKCTX. -/
theorem mkctxRejectsOtherKeyLengths : Obligations.MkctxRejectsOtherKeyLengths :=
  ⟨rfl, fun _ => exec_mkctx_of_keyLen_ne⟩

/-- Settles O38: the branch of MKCTX that succeeds, box by box. -/
theorem mkctxBuildsTheContext : Obligations.MkctxBuildsTheContext :=
  fun s h => ⟨_, exec_mkctx_of_keyLen_eq h, gen_getElem s.key, zeroKey_getElem, zeroKey_getElem, rfl⟩

end Sys2Proof.Machine
end

section
/-! PROOF. The padding codec, PAD and UNPAD (41_padding.md). -/

namespace Sys2Proof.Machine

/-! ## The pad value (R120, R126) -/

theorem padValue_pos (l : Nat) : 1 ≤ padValue l := by
  unfold padValue
  omega

theorem padValue_le_eight (l : Nat) : padValue l ≤ 8 := Nat.sub_le ..

/-- The padded length is a multiple of 8 (R121). -/
theorem add_padValue_mod_eight (l : Nat) : (l + padValue l) % 8 = 0 := by
  unfold padValue
  omega

/-- The byte that carries the pad value carries it whole. -/
theorem toNat_ofNat_padValue (l : Nat) : (BitVec.ofNat 8 (padValue l)).toNat = padValue l := by
  have := padValue_le_eight l
  exact Nat.mod_eq_of_lt (by omega)

/-- Settles O41: the padded length is a multiple of 8 and at most 8 above `l`, so no multiple of 8 lies between them. -/
theorem padValueBounds : Obligations.PadValueBounds := by
  intro l
  have upper := padValue_le_eight l
  have multiple := add_padValue_mod_eight l
  refine ⟨?_, padValue_pos l, upper, multiple, fun m hm hlt => by omega⟩
  split
  · next h => rw [padValue, h]
  · rfl

/-- The last byte of a padded message gives its length back (R125). -/
theorem unpadLen_add_padValue (l : Nat) : unpadLen (l + padValue l) (BitVec.ofNat 8 (padValue l)) = some l := by
  have positive := padValue_pos l
  rw [unpadLen, toNat_ofNat_padValue, if_neg (by omega), Nat.add_sub_cancel]

/-! ## PAD (R122) -/

/-- PAD where the padded message fits. -/
theorem exec_pad_of_fits {s : State} (h : s.msgLen.toNat + padValue s.msgLen.toNat ≤ s.bufSize.toNat) :
    exec .pad s = .next (State.complete .success
      (State.setLength (s.msgLen.toNat + padValue s.msgLen.toNat) { s with buf := s.paddedBuf })) :=
  if_pos (s.padFits_iff.2 h)

/-- PAD where the padded message does not fit. -/
theorem exec_pad_of_not_fits {s : State} (h : s.bufSize.toNat < s.msgLen.toNat + padValue s.msgLen.toNat) :
    exec .pad s = .next (s.complete .capacityExceeded) :=
  if_neg fun fits => Nat.not_le.2 h (s.padFits_iff.1 fits)

/-- A length that fits in BUF fits in MSG_LEN. -/
theorem State.toNat_setLength_of_le {s : State} {n : Nat} (h : n ≤ s.bufSize.toNat) :
    (s.setLength n).msgLen.toNat = n :=
  Nat.mod_eq_of_lt (h.trans_lt s.bufSize.isLt)

/-- Settles O42: the two branches of PAD, and the padded buffer byte by byte. -/
theorem padAppendsOrReportsCapacity : Obligations.PadAppendsOrReportsCapacity :=
  ⟨rfl, fun s => ⟨fun fits => ⟨_, exec_pad_of_fits fits, State.toNat_setLength_of_le fits, s.read_paddedBuf, rfl⟩,
    exec_pad_of_not_fits⟩⟩

/-! ## UNPAD (R124) -/

/-- UNPAD of a message longer than BUF. -/
theorem exec_unpad_of_tooLong {s : State} (h : s.bufSize.toNat < s.msgLen.toNat) :
    exec .unpad s = .next (s.complete .capacityExceeded) :=
  if_pos h

/-- UNPAD past its capacity check on an empty message. -/
theorem exec_unpad_of_empty {s : State} (fits : ¬ s.bufSize.toNat < s.msgLen.toNat) (h : s.msgLen.toNat = 0) :
    exec .unpad s = .next (s.complete .invalidPadding) :=
  (if_neg fits).trans (if_pos h)

/-- UNPAD past its two checks on the length. -/
theorem exec_unpad_of_nonempty {s : State} (fits : ¬ s.bufSize.toNat < s.msgLen.toNat) (h : s.msgLen.toNat ≠ 0) :
    exec .unpad s = s.unpad :=
  (if_neg fits).trans (if_neg h)

/-- Settles O43: the two checks on the length, then the cases of the last byte. -/
theorem unpadOutcomes : Obligations.UnpadOutcomes := by
  refine ⟨rfl, fun s => ?_⟩
  split
  · next tooLong => exact exec_unpad_of_tooLong tooLong
  · next fits =>
    split
    · next empty => exact exec_unpad_of_empty fits empty
    · next nonempty =>
      rw [exec_unpad_of_nonempty fits nonempty]
      rcases s.unpad_cases with ⟨byte, result⟩ | ⟨v, byte, ⟨refused, result⟩ | ⟨accepted, result⟩⟩ <;>
        simp only [byte]
      · exact result
      · rw [if_pos refused]
        exact result
      · rw [if_neg accepted]
        exact result

/-! ## PAD followed by UNPAD (R125) -/

/-- The end of UNPAD where its last byte was written and passes both checks (R123). -/
theorem State.unpad_of_unpadLen {s : State} {v : Byte} {r : Nat} (byte : Memory.read s.buf (s.msgLen.toNat - 1) = some v)
    (len : unpadLen s.msgLen.toNat v = some r) : s.unpad = .next ((s.setLength r).complete .success) := by
  simp only [State.unpad, State.length_eq, byte, len, State.finish_eq]

/-- The last byte of the padded message is the pad value. -/
theorem State.read_paddedBuf_last (s : State) :
    Memory.read s.paddedBuf (s.msgLen.toNat + padValue s.msgLen.toNat - 1) =
      some (BitVec.ofNat 8 (padValue s.msgLen.toNat)) := by
  have positive := padValue_pos s.msgLen.toNat
  rw [s.read_paddedBuf, if_pos (by omega)]

/-- A PAD that completes with Success found room, and what it leaves. -/
theorem exec_pad_success {s t : State} (h : exec .pad s = .next t) (success : t.err = 0) :
    s.msgLen.toNat + padValue s.msgLen.toNat ≤ s.bufSize.toNat ∧ t.bufSize = s.bufSize ∧ t.buf = s.paddedBuf ∧
      t.msgLen.toNat = s.msgLen.toNat + padValue s.msgLen.toNat := by
  by_cases fits : s.msgLen.toNat + padValue s.msgLen.toNat ≤ s.bufSize.toNat
  · obtain rfl := Host.Outcome.next.inj ((exec_pad_of_fits fits).symm.trans h)
    exact ⟨fits, rfl, rfl, State.toNat_setLength_of_le fits⟩
  · obtain rfl := Host.Outcome.next.inj ((exec_pad_of_not_fits (Nat.not_le.1 fits)).symm.trans h)
    exact absurd success (show (5 : BitVec 4) ≠ 0 by decide)

/-- Settles O45: UNPAD finds the pad value in the last byte, and the padding starts where the message ends. -/
theorem padThenUnpadRestores : Obligations.PadThenUnpadRestores := by
  refine ⟨unpadLen_add_padValue, fun s t h success => ?_⟩
  obtain ⟨fits, size, buf, length⟩ := exec_pad_success h success
  have positive := padValue_pos s.msgLen.toNat
  have unpads : t.unpad = .next ((t.setLength s.msgLen.toNat).complete .success) :=
    State.unpad_of_unpadLen (by rw [buf, length, s.read_paddedBuf_last])
      (by rw [length, unpadLen_add_padValue])
  refine ⟨_, (exec_unpad_of_nonempty (by rw [size]; omega) (by omega)).trans unpads, rfl,
    (BitVec.ofNat_toNat ..).trans (BitVec.setWidth_eq _), fun a ha => ?_⟩
  calc Memory.read t.buf a
    _ = Memory.read s.paddedBuf a := by rw [buf]
    _ = Memory.read s.buf a := by rw [s.read_paddedBuf, if_neg (by omega)]

end Sys2Proof.Machine
end

section
/-! PROOF. The round engine: one round forth and back (42_feistel_round.md R144). -/

namespace Sys2Proof.Machine

/-- Adding the same half twice changes nothing, which is why a round can be undone for any table. -/
@[simp] theorem Half.xor_xor_cancel_right (x y : Half) : (x.xor y).xor y = x := by
  simp only [Half.xor, BitVec.xor_assoc, BitVec.xor_self, BitVec.xor_zero]

/-- The decryption round looks up the half that the encryption round moved to the left unchanged. -/
@[simp] theorem decRound_encRound (x : Block) (t : SBox) : decRound (encRound x t) t = x := by
  simp only [decRound, encRound, Half.xor_xor_cancel_right]

/-- The encryption round looks up the half that the decryption round moved to the right unchanged. -/
@[simp] theorem encRound_decRound (x : Block) (t : SBox) : encRound (decRound x t) t = x := by
  simp only [decRound, encRound, Half.xor_xor_cancel_right]

/-- Settles O46: each round undoes the other, since both look up the half that the first of them only moved. -/
theorem roundsInvertEachOther : Obligations.RoundsInvertEachOther :=
  fun x t => ⟨decRound_encRound x t, encRound_decRound x t⟩

end Sys2Proof.Machine
end

section
/-! PROOF. The block driver: a block decrypted after it was encrypted, the length of a ciphertext, and DEC after ENC
(43_block_driver.md R163, R167, R169). -/

namespace Sys2Proof.Machine

/-! ## One block (R163) -/

/-- Rounds are undone by the decryption rounds with the same tables in the reverse order, whatever the rounds are. -/
theorem foldl_decRound_reverse_foldl_encRound (box : Boxes) (rounds : List (BitVec 4)) (x : Block) :
    rounds.reverse.foldl (fun y i => decRound y (box.box i)) (rounds.foldl (fun y i => encRound y (box.box i)) x) = x := by
  induction rounds generalizing x with
  | nil => rfl
  | cons r rounds ih =>
    rw [List.reverse_cons, List.foldl_concat, List.foldl_cons, ih]
    exact decRound_encRound x (box.box r)

@[simp] theorem decBlock_encBlock (x : Block) (box : Boxes) : decBlock (encBlock x box) box = x :=
  foldl_decRound_reverse_foldl_encRound box roundIndices x

/-- Settles O52: the sixteen rounds, undone from the last to the first. -/
theorem blockInversion : Obligations.BlockInversion := decBlock_encBlock

/-! ## The sequencer forth and back (R165) -/

/-- A byte of a byte sequence, by the block it lies in. -/
theorem byte_of_blockAt {bytes : Nat → Option Byte} {a : Nat} {x : Block} (h : blockAt bytes (a / 8) x) :
    bytes a = x.toBytes[a % 8]? := by
  have byte := h (a % 8) (Nat.mod_lt _ (by decide))
  rwa [Nat.div_add_mod] at byte

/-- Every byte in the range of the sequencer is written afterwards. -/
theorem isSome_read_of_cryptBlocks {f : Block → Block} {count n a : Nat} {m m' : List Host.Cell}
    (h : cryptBlocks f count n m = some m') (lower : n ≤ a / 8) (upper : a / 8 < n + count) :
    (Memory.read m' a).isSome = true := by
  obtain ⟨x, _, after⟩ := (cryptBlocks_spec h).1 (a / 8) lower upper
  have lane : a % 8 < (f x).toBytes.length := Nat.mod_lt _ (by decide)
  rw [byte_of_blockAt after, List.getElem?_eq_getElem lane, Option.isSome_some]

/-- The sequencer's result in its range depends on no byte outside it. -/
theorem read_cryptBlocks_congr {f : Block → Block} {count n a : Nat} {m₁ m₂ m₁' m₂' : List Host.Cell}
    (h₁ : cryptBlocks f count n m₁ = some m₁') (h₂ : cryptBlocks f count n m₂ = some m₂')
    (agree : ∀ a, 8 * n ≤ a → a < 8 * (n + count) → Memory.read m₁ a = Memory.read m₂ a)
    (lower : n ≤ a / 8) (upper : a / 8 < n + count) : Memory.read m₁' a = Memory.read m₂' a := by
  obtain ⟨x₁, before₁, after₁⟩ := (cryptBlocks_spec h₁).1 (a / 8) lower upper
  obtain ⟨x₂, before₂, after₂⟩ := (cryptBlocks_spec h₂).1 (a / 8) lower upper
  have same : x₁ = x₂ := blockAt_unique before₁ (blockAt_congr (fun b _ _ => agree b (by omega) (by omega)) before₂)
  rw [byte_of_blockAt after₁, byte_of_blockAt after₂, same]

/-- A sequencer pass with the inverse of `f` undoes a pass with `f`, on every byte of BUF. -/
theorem read_cryptBlocks_of_leftInverse {f g : Block → Block} (inverse : Function.LeftInverse g f) {count n : Nat}
    {m m' m'' : List Host.Cell} (forth : cryptBlocks f count n m = some m') (back : cryptBlocks g count n m' = some m'')
    (a : Nat) : Memory.read m'' a = Memory.read m a := by
  obtain ⟨forthBlocks, forthOthers⟩ := cryptBlocks_spec forth
  obtain ⟨backBlocks, backOthers⟩ := cryptBlocks_spec back
  by_cases inside : n ≤ a / 8 ∧ a / 8 < n + count
  · obtain ⟨x, before, between⟩ := forthBlocks (a / 8) inside.1 inside.2
    obtain ⟨y, between', after⟩ := backBlocks (a / 8) inside.1 inside.2
    rw [blockAt_unique between' between, inverse x] at after
    rw [byte_of_blockAt after, byte_of_blockAt before]
  · rw [backOthers a (by omega), forthOthers a (by omega)]

/-! ## What ENC leaves when it completes with Success (R166, R167) -/

/-- ENC without a context. -/
theorem exec_enc_of_noContext {s : State} (h : s.ctxValid = false) : exec .enc s = .next (s.complete .noContext) :=
  State.needContext_invalid h _

/-- ENC with a context where the padded message does not fit. -/
theorem exec_enc_of_not_fits {s : State} (context : s.ctxValid = true)
    (h : s.bufSize.toNat < s.msgLen.toNat + padValue s.msgLen.toNat) :
    exec .enc s = .next (s.complete .capacityExceeded) :=
  (State.needContext_valid context _).trans (if_neg fun fits => Nat.not_le.2 h (s.padFits_iff.1 fits))

/-- ENC with a context where the padded message fits and the message was written. -/
theorem exec_enc_of_written {s : State} (context : s.ctxValid = true)
    (fits : s.msgLen.toNat + padValue s.msgLen.toNat ≤ s.bufSize.toNat) (written : s.messageWritten) :
    ∃ t, exec .enc s = .next t ∧ t.err = 0 := by
  rcases execEnc_fits context fits with ⟨unwritten, _⟩ | ⟨_, _, _, result⟩
  · exact absurd written unwritten
  · exact ⟨_, result, rfl⟩

/-- What DEC and the statements about ciphertexts need of a state `t` in which ENC ended with Success from `s`. -/
structure State.EncryptsTo (s t : State) : Prop where
  fits : s.msgLen.toNat + padValue s.msgLen.toNat ≤ s.bufSize.toNat
  context : t.ctxValid = true
  sbox : t.sbox = s.sbox
  size : t.bufSize = s.bufSize
  length : t.msgLen.toNat = s.msgLen.toNat + padValue s.msgLen.toNat
  blocks : cryptBlocks (fun x => encBlock x s.sbox) ((s.msgLen.toNat + padValue s.msgLen.toNat) / 8) 0 s.paddedBuf =
    some t.buf

/-- Of the ends of ENC only the one past all its checks has code 0. -/
theorem encryptsTo_of_exec_enc {s t : State} (h : exec .enc s = .next t) (success : t.err = 0) : s.EncryptsTo t := by
  cases context : s.ctxValid with
  | false =>
    obtain rfl := Host.Outcome.next.inj ((exec_enc_of_noContext context).symm.trans h)
    exact absurd success (show (4 : BitVec 4) ≠ 0 by decide)
  | true =>
    by_cases fits : s.msgLen.toNat + padValue s.msgLen.toNat ≤ s.bufSize.toNat
    · rcases execEnc_fits context fits with ⟨_, stops⟩ | ⟨m, _, blocks, result⟩
      · cases stops.symm.trans h
      · obtain rfl := Host.Outcome.next.inj (result.symm.trans h)
        exact ⟨fits, context, rfl, rfl, State.toNat_setLength_of_le (s := s.driverWrites m) fits, blocks⟩
    · obtain rfl := Host.Outcome.next.inj ((exec_enc_of_not_fits context (Nat.not_le.1 fits)).symm.trans h)
      exact absurd success (show (5 : BitVec 4) ≠ 0 by decide)

/-- Settles O55: a successful ENC sets MSG_LEN to the padded length, which the bounds on the pad value place. -/
theorem ciphertextLength : Obligations.CiphertextLength := by
  intro s t h success
  have length := (encryptsTo_of_exec_enc h success).length
  obtain ⟨_, positive, _, multiple, least⟩ := padValueBounds s.msgLen.toNat
  rw [length]
  exact ⟨rfl, by omega, multiple, least⟩

/-! ## DEC after ENC, and the same ciphertext every time (R169) -/

/-- ENC leaves every byte of the ciphertext written. -/
theorem State.EncryptsTo.messageWritten {s t : State} (h : s.EncryptsTo t) : t.messageWritten := by
  intro a ha
  rw [h.length] at ha
  have multiple := add_padValue_mod_eight s.msgLen.toNat
  exact isSome_read_of_cryptBlocks h.blocks (Nat.zero_le _) (by omega)

/-- DEC finds the padded message again, and takes off the pad value that its last byte is. -/
theorem State.EncryptsTo.exec_dec {s t : State} (h : s.EncryptsTo t) :
    ∃ u, exec .dec t = .next u ∧ u.err = 0 ∧ u.msgLen = s.msgLen ∧
      ∀ a, a < s.msgLen.toNat → Memory.read u.buf a = Memory.read s.buf a := by
  have length := h.length
  have positive := padValue_pos s.msgLen.toNat
  have multiple := add_padValue_mod_eight s.msgLen.toNat
  rcases execDec_runs h.context (by rw [length, h.size]; exact h.fits) (by omega) (by omega) with
    ⟨unwritten, _⟩ | ⟨m, v, _, back, last, result⟩
  · exact absurd h.messageWritten unwritten
  rw [length, h.sbox] at back
  have restored : ∀ a, Memory.read m a = Memory.read s.paddedBuf a :=
    read_cryptBlocks_of_leftInverse (fun x => decBlock_encBlock x s.sbox) h.blocks back
  have pad : v.toNat = padValue s.msgLen.toNat := by
    rw [length, restored, s.read_paddedBuf_last] at last
    rw [← Option.some.inj last, toNat_ofNat_padValue]
  rcases result with ⟨refused, _⟩ | ⟨_, result⟩
  · omega
  · refine ⟨_, result, rfl, ?_, fun a ha => ?_⟩
    · have unpadded : t.msgLen.toNat - v.toNat = s.msgLen.toNat := by omega
      rw [unpadded]
      exact (BitVec.ofNat_toNat ..).trans (BitVec.setWidth_eq _)
    · calc Memory.read m a
        _ = Memory.read s.paddedBuf a := restored a
        _ = Memory.read s.buf a := by rw [s.read_paddedBuf, if_neg (by omega)]

/-- The ciphertext depends on nothing but the tables and the message. -/
theorem State.EncryptsTo.deterministic {s s' t t' : State} (h : s.EncryptsTo t) (h' : s'.EncryptsTo t')
    (sbox : s.sbox = s'.sbox) (msgLen : s.msgLen = s'.msgLen)
    (message : ∀ a, a < s.msgLen.toNat → Memory.read s.buf a = Memory.read s'.buf a) :
    t.msgLen = t'.msgLen ∧ ∀ a, a < t.msgLen.toNat → Memory.read t.buf a = Memory.read t'.buf a := by
  have multiple := add_padValue_mod_eight s.msgLen.toNat
  have length := h.length
  have blocks' := h'.blocks
  rw [← sbox, ← msgLen] at blocks'
  have padded : ∀ a, a < s.msgLen.toNat + padValue s.msgLen.toNat →
      Memory.read s.paddedBuf a = Memory.read s'.paddedBuf a := by
    intro a ha
    rw [s.read_paddedBuf, s'.read_paddedBuf, ← msgLen]
    split
    · rfl
    · exact message a (by omega)
  refine ⟨BitVec.eq_of_toNat_eq (by rw [length, h'.length, msgLen]), fun a ha => ?_⟩
  exact read_cryptBlocks_congr h.blocks blocks' (fun b _ hb => padded b (by omega)) (Nat.zero_le _) (by omega)

@[simp] theorem execAll_nil (s : State) : execAll [] s = some s := rfl

/-- Commands in turn: the first goes to a next state, from which the others run. -/
theorem execAll_cons_eq_some {i : Instr} {is : List Instr} {s u : State} :
    execAll (i :: is) s = some u ↔ ∃ t, exec i s = .next t ∧ execAll is t = some u := by
  rw [execAll]
  cases exec i s <;> simp

theorem execAll_singleton_eq_some {i : Instr} {s t : State} : execAll [i] s = some t ↔ exec i s = .next t := by
  simp only [execAll_cons_eq_some, execAll_nil, Option.some.injEq, exists_eq_right]

/-- MKCTX builds the context of the key and leaves the message (R107). -/
theorem exec_mkctx_keeps_message {s : State} (h : s.keyLen = 32) :
    ∃ t, exec .mkctx s = .next t ∧ t.ctxValid = true ∧ t.sbox = gen s.key ∧ t.msgLen = s.msgLen ∧
      t.bufSize = s.bufSize ∧ t.buf = s.buf :=
  ⟨_, exec_mkctx_of_keyLen_eq h, rfl, rfl, rfl, rfl, rfl⟩

/-- A successful ENC right after MKCTX starts from the context of the key and from the message as it was. -/
theorem encryptsTo_of_execAll_mkctx_enc {s t : State} (key : s.keyLen = 32) (h : execAll [.mkctx, .enc] s = some t)
    (success : t.err = 0) :
    ∃ c : State, c.EncryptsTo t ∧ c.sbox = gen s.key ∧ c.msgLen = s.msgLen ∧ c.buf = s.buf := by
  obtain ⟨c, mkctx, _, sbox, msgLen, _, buf⟩ := exec_mkctx_keeps_message key
  obtain ⟨c', mkctx', enc⟩ := execAll_cons_eq_some.1 h
  obtain rfl := Host.Outcome.next.inj (mkctx.symm.trans mkctx')
  exact ⟨c, encryptsTo_of_exec_enc (execAll_singleton_eq_some.1 enc) success, sbox, msgLen, buf⟩

/-- Settles O58: DEC undoes ENC in the context that MKCTX built, and two ENC in the context of one key agree. -/
theorem encryptThenDecryptRestores : Obligations.EncryptThenDecryptRestores := by
  constructor
  · intro s key fits written
    obtain ⟨c, mkctx, context, _, msgLen, size, buf⟩ := exec_mkctx_keeps_message key
    rw [← msgLen, ← size] at fits
    have written : c.messageWritten := by rwa [State.messageWritten, msgLen, buf]
    obtain ⟨t, enc, success⟩ := exec_enc_of_written context fits written
    obtain ⟨u, dec, code, length, message⟩ := (encryptsTo_of_exec_enc enc success).exec_dec
    rw [msgLen, buf] at message
    exact ⟨u, execAll_cons_eq_some.2 ⟨c, mkctx, execAll_cons_eq_some.2 ⟨t, enc, execAll_singleton_eq_some.2 dec⟩⟩, code,
      length.trans msgLen, message⟩
  · intro s s' t t' keyLen keyLen' key msgLen message run run' success success'
    obtain ⟨c, enc, sbox, length, buf⟩ := encryptsTo_of_execAll_mkctx_enc keyLen run success
    obtain ⟨c', enc', sbox', length', buf'⟩ := encryptsTo_of_execAll_mkctx_enc keyLen' run' success'
    refine enc.deterministic enc' ?_ ?_ ?_
    · rw [sbox, sbox', key]
    · rw [length, length', msgLen]
    · rwa [length, buf, buf']

end Sys2Proof.Machine
end

section
/-! PROOF. The command NOP (44_control.md R180). -/

namespace Sys2Proof.Machine

/-- The Core's step on a command word just accepted runs the command it decodes to (R74). -/
theorem step_withFetchWord_of_decode {s : State} {nbits w : Nat} {i : Instr}
    (h : decode (BitVec.ofNat 32 (w % 2 ^ nbits)) = .ok i) :
    step (s.withFetchWord nbits w) = exec i (s.withFetchWord nbits w) := by
  rw [step_of_coreHasTurn (.inl rfl) rfl, coreStep, h]

theorem exec_nop (s : State) : exec .nop s = .next (s.complete .success) := rfl

/-- STATUS after Success without a context: DONE alone is set (R23, R74). -/
theorem State.statusWord_complete_success {s : State} (h : s.ctxValid = false) :
    (s.complete .success).statusWord = 0x00000002 := by
  have context : (s.complete .success).ctxValid = false := h
  apply BitVec.eq_of_toNat_eq
  rw [State.statusWord_toNat, context]
  rfl

/-- Settles O32: NOP is the lifecycle's end with Success, and after reset there is no context for STATUS to show. -/
theorem nopOnlyCompletes : Obligations.NopOnlyCompletes := by
  have fetched (s : State) : step (s.withFetchWord 32 0) = .next ((s.withFetchWord 32 0).complete .success) :=
    (step_withFetchWord_of_decode (by decide)).trans (exec_nop _)
  exact ⟨by decide, exec_nop, _, fetched State.reset, State.statusWord_complete_success rfl⟩

end Sys2Proof.Machine
end

section
/-! PROOF. The cipher commands without a context (70_reset_and_hazards.md R244), and what every address reads as while a
command is in progress (R243). -/

namespace Sys2Proof.Machine

/-! ## The cipher commands without a context (R24, R244) -/

/-- Settles O49: each of the six commands opens with the context check, which fails. -/
theorem cipherCommandsNeedAContext : Obligations.CipherCommandsNeedAContext := by
  intro s i context cipher
  have stops (k : Result) : s.needContext k = .next (s.complete .noContext) := State.needContext_invalid context k
  rcases cipher with rfl | rfl | rfl | rfl | ⟨_, rfl | rfl⟩ <;> exact stops _

/-! ## Reads while a command is in progress (R243) -/

/-- STATUS shows BUSY, and beside it CTX_VALID alone, while a command is in progress (R243). -/
theorem State.statusWord_toNat_of_busy {s : State} (h : s.lifecycleOk) (busy : s.busy = true) :
    s.statusWord.toNat = 1 + 4 * s.ctxValid.toNat := by
  obtain ⟨_, inProgress, _⟩ := h
  obtain ⟨done, err⟩ := inProgress busy
  rw [s.statusWord_toNat, busy, done, err]
  rfl

/-- CMD reads 0 at any time (R54). -/
theorem State.readsAs_cmd (s : State) : s.readsAs 0x000 0 :=
  State.readsAs_eq (by decide) (by rw [s.region_cmd]; rfl)

/-- The KEY window reads 0 at any time (R34). -/
theorem State.readsAs_key (s : State) {a : Nat} (h4 : a % 4 = 0) (h : a < 32) :
    s.readsAs (BitVec.ofNat 32 (0x020 + a)) 0 :=
  State.readsAs_eq (ofNat_isWordAddress (by omega)) (by rw [s.region_key h]; rfl)

/-- Settles O22: each exact address by its bus rule, and any other word address by the rule of the region it selects. -/
theorem readsWhileBusy : Obligations.ReadsWhileBusy := by
  intro s inv busy
  refine ⟨⟨s.statusWord, s.readsAs_status, State.statusWord_toNat_of_busy inv.lifecycle busy⟩, s.readsAs_bufSize,
    s.readsAs_cmd, fun q hq => s.readsAs_key (by omega) (by omega), fun addr aligned => ⟨fun reserved => ?_, ?_⟩⟩
  · exact (reservedAddressesReadZero s addr 0 aligned reserved).1
  · exact ⟨_, State.readsAs_of_region aligned⟩

end Sys2Proof.Machine
end

section
/-! PROOF. Decode and encode of a command word, the opcode table, and which words are illegal (30_encoding.md R70 to R72, R76,
R79). -/

namespace Sys2Proof

/-! ## A word and its fields (R70) -/

theorem wordOf_toNat (f : CmdFields) :
    (wordOf f).toNat = f.rsvd.toNat * 2 ^ 8 + f.rnd.toNat * 2 ^ 4 + f.op.toNat := by
  have op := f.op.isLt
  have rnd := f.rnd.isLt
  change (f.rsvd ++ f.rnd ++ f.op : BitVec (24 + 4 + 4)).toNat = _
  rw [BitVec.toNat_append, BitVec.toNat_append, ← Nat.shiftLeft_add_eq_or_of_lt rnd, ← Nat.shiftLeft_add_eq_or_of_lt op,
    Nat.shiftLeft_eq, Nat.shiftLeft_eq]
  omega

@[simp] theorem fieldsOf_wordOf (f : CmdFields) : fieldsOf (wordOf f) = f := by
  obtain ⟨op, rnd, rsvd⟩ := f
  have word := wordOf_toNat ⟨op, rnd, rsvd⟩
  have hop := op.isLt
  have hrnd := rnd.isLt
  have hrsvd := rsvd.isLt
  simp only [fieldsOf, CmdFields.mk.injEq]
  refine ⟨?_, ?_, ?_⟩ <;> apply BitVec.eq_of_toNat_eq <;>
    rw [BitVec.extractLsb'_toNat, word, Nat.shiftRight_eq_div_pow] <;> simp only <;> omega

@[simp] theorem wordOf_fieldsOf (w : Word) : wordOf (fieldsOf w) = w := by
  apply BitVec.eq_of_toNat_eq
  rw [wordOf_toNat]
  simp only [fieldsOf, BitVec.extractLsb'_toNat, Nat.shiftRight_eq_div_pow]
  omega

theorem fieldsOf_inj {w v : Word} : fieldsOf w = fieldsOf v ↔ w = v :=
  ⟨fun h => by rw [← wordOf_fieldsOf w, h, wordOf_fieldsOf], congrArg fieldsOf⟩

/-- A mask acts on each field by itself. -/
theorem fieldsOf_and_wordOf (w : Word) (m : CmdFields) :
    fieldsOf (w &&& wordOf m) =
      ⟨(fieldsOf w).op &&& m.op, (fieldsOf w).rnd &&& m.rnd, (fieldsOf w).rsvd &&& m.rsvd⟩ := by
  rw [← congrArg CmdFields.op (fieldsOf_wordOf m), ← congrArg CmdFields.rnd (fieldsOf_wordOf m),
    ← congrArg CmdFields.rsvd (fieldsOf_wordOf m)]
  simp only [fieldsOf, BitVec.extractLsb'_and]

/-! ## Decode inverts encode (R72) -/

theorem decodeFields_instrFields (i : Instr) : decodeFields (instrFields i) = .ok i := by
  cases i <;> rfl

theorem decodePlain_eq_ok {f : CmdFields} {i j : Instr} (h : decodePlain f i = .ok j) :
    f.rsvd = 0 ∧ f.rnd = 0 ∧ i = j := by
  unfold decodePlain at h
  split at h
  · cases h
  · split at h
    · cases h
    · exact ⟨not_not.1 ‹_›, not_not.1 ‹_›, Except.ok.inj h⟩

theorem decodeRound_eq_ok {f : CmdFields} {c : BitVec 4 → Instr} {j : Instr} (h : decodeRound f c = .ok j) :
    f.rsvd = 0 ∧ c f.rnd = j := by
  unfold decodeRound at h
  split at h
  · cases h
  · exact ⟨not_not.1 ‹_›, Except.ok.inj h⟩

theorem eq_instrFields_of_decodePlain {f : CmdFields} {i j : Instr} (h : decodePlain f i = .ok j)
    (op : f.op.toNat = (opcodeOf i).toNat) (round : roundOf i = 0) : f = instrFields j := by
  obtain ⟨rsvd, rnd, rfl⟩ := decodePlain_eq_ok h
  rw [instrFields, ← BitVec.eq_of_toNat_eq op, round, ← rnd, ← rsvd]

theorem eq_instrFields_of_decodeRound {f : CmdFields} {c : BitVec 4 → Instr} {j : Instr}
    (h : decodeRound f c = .ok j) (op : f.op.toNat = (opcodeOf (c f.rnd)).toNat) (round : roundOf (c f.rnd) = f.rnd) :
    f = instrFields j := by
  obtain ⟨rsvd, rfl⟩ := decodeRound_eq_ok h
  rw [instrFields, ← BitVec.eq_of_toNat_eq op, round, ← rsvd]

/-- A command is decoded from its own fields only. -/
theorem decodeFields_eq_ok_iff {f : CmdFields} {i : Instr} : decodeFields f = .ok i ↔ f = instrFields i := by
  refine ⟨fun h => ?_, fun h => h ▸ decodeFields_instrFields i⟩
  unfold decodeFields at h
  split at h <;> rename_i op
  case h_5 | h_6 => exact eq_instrFields_of_decodeRound h op rfl
  case h_12 => cases h
  all_goals exact eq_instrFields_of_decodePlain h op rfl

theorem decode_eq_ok_iff {w : Word} {i : Instr} : decode w = .ok i ↔ fieldsOf w = instrFields i := decodeFields_eq_ok_iff

theorem opcodeOf_of_decode {w : Word} {i : Instr} (h : decode w = .ok i) : opcodeOf i = (fieldsOf w).op := by
  rw [decode_eq_ok_iff.1 h]
  rfl

theorem decode_encode (i : Instr) : decode (encode i) = .ok i :=
  decode_eq_ok_iff.2 (fieldsOf_wordOf (instrFields i))

/-- Settles O1: a word decodes to a command exactly when its fields are the command's, and a word is its fields. -/
theorem decodeExactlyInvertsEncode : Obligations.DecodeExactlyInvertsEncode := by
  intro w i
  rw [decode_eq_ok_iff, ← fieldsOf_wordOf (instrFields i), fieldsOf_inj]
  rfl

/-- Settles O4: nine closed words. -/
theorem sampleWordsDecode : Obligations.SampleWordsDecode := by
  unfold Obligations.SampleWordsDecode
  decide

/-! ## The words that decode at all (R76) -/

theorem instrFields_wellFormed (i : Instr) : (instrFields i).wellFormed = true :=
  match i with
  | .nop => Laws.Fields.nop
  | .mkctx => Laws.Fields.mkctx
  | .pad => Laws.Fields.pad
  | .unpad => Laws.Fields.unpad
  | .encr r => Laws.Fields.encr r
  | .decr r => Laws.Fields.decr r
  | .encb => Laws.Fields.encb
  | .decb => Laws.Fields.decb
  | .enc => Laws.Fields.enc
  | .dec => Laws.Fields.dec
  | .clrctx => Laws.Fields.clrctx

theorem CmdFields.wellFormed_iff (f : CmdFields) :
    f.wellFormed = true ↔ f.op.toNat ≤ 0xA ∧ (f.op = 4 ∨ f.op = 5 ∨ f.rnd = 0) ∧ f.rsvd = 0 := by
  simp [CmdFields.wellFormed, CmdFields.opcodeDefined, CmdFields.roundAllowed, CmdFields.reservedZero, and_assoc, or_assoc]

/-- With RSVD zero the decoder accepts exactly what the checks on OP and RND accept, value by value. -/
theorem isOk_decodeFields_eq_wellFormed (op rnd : BitVec 4) :
    (decodeFields ⟨op, rnd, 0⟩).isOk = CmdFields.wellFormed ⟨op, rnd, 0⟩ := by
  revert op rnd
  decide

theorem exists_decode_eq_ok_iff (w : Word) : (∃ i, decode w = .ok i) ↔ (fieldsOf w).wellFormed = true := by
  constructor
  · rintro ⟨i, h⟩
    rw [decode_eq_ok_iff.1 h]
    exact instrFields_wellFormed i
  · intro h
    obtain ⟨_, _, rsvd⟩ := (CmdFields.wellFormed_iff _).1 h
    have fields : fieldsOf w = ⟨(fieldsOf w).op, (fieldsOf w).rnd, 0⟩ := by rw [← rsvd]
    have accepted : (decode w).isOk = true := by
      rw [decode, fields, isOk_decodeFields_eq_wellFormed, ← fields, h]
    cases hd : decode w with
    | ok i => exact ⟨i, rfl⟩
    | error _ => simp [hd, Except.isOk, Except.toBool] at accepted

theorem exists_decode_eq_error_iff (w : Word) : (∃ why, decode w = .error why) ↔ ¬ ∃ i, decode w = .ok i := by
  cases decode w <;> simp

/-! ## The opcode table (R79) -/

/-- A row's match is its opcode; its mask leaves RND free for ENCR and DECR alone. -/
theorem tableRow_eq (i : Instr) :
    tableRow i = (wordOf ⟨opcodeOf i, 0, 0⟩,
      wordOf ⟨BitVec.allOnes 4, if opcodeOf i = 4 ∨ opcodeOf i = 5 then 0 else BitVec.allOnes 4, BitVec.allOnes 24⟩) := by
  cases i
  case encr r | decr r => revert r; decide
  all_goals rfl

/-- A word matches a row exactly when its fields pass the checks and OP is the row's. -/
theorem matches_tableRow_iff (w : Word) (i : Instr) :
    w &&& (tableRow i).2 = (tableRow i).1 ↔ (fieldsOf w).wellFormed = true ∧ (fieldsOf w).op = opcodeOf i := by
  have defined : (opcodeOf i).toNat ≤ 0xA := ((CmdFields.wellFormed_iff _).1 (instrFields_wellFormed i)).1
  rw [tableRow_eq, ← fieldsOf_inj, fieldsOf_and_wordOf, fieldsOf_wordOf, CmdFields.wellFormed_iff]
  simp only [BitVec.and_allOnes, CmdFields.mk.injEq]
  constructor
  · rintro ⟨op, rnd, rsvd⟩
    refine ⟨⟨op ▸ defined, ?_, rsvd⟩, op⟩
    rw [op]
    split at rnd
    · next h => exact h.imp_right .inl
    · exact .inr (.inr (BitVec.and_allOnes.symm.trans rnd))
  · rintro ⟨⟨_, rnd, rsvd⟩, op⟩
    refine ⟨op, ?_, rsvd⟩
    rw [op] at rnd
    split
    · exact BitVec.and_zero
    · next h => exact BitVec.and_allOnes.trans ((rnd.resolve_left (h ∘ .inl)).resolve_left (h ∘ .inr))

theorem matches_tableRow_iff_decode (w : Word) (i : Instr) :
    w &&& (tableRow i).2 = (tableRow i).1 ↔ ∃ j, decode w = .ok j ∧ opcodeOf j = opcodeOf i := by
  rw [matches_tableRow_iff, ← exists_decode_eq_ok_iff]
  constructor
  · rintro ⟨⟨j, h⟩, op⟩
    exact ⟨j, h, (opcodeOf_of_decode h).trans op⟩
  · rintro ⟨j, h, op⟩
    exact ⟨⟨j, h⟩, (opcodeOf_of_decode h).symm.trans op⟩

/-- Settles O3: a row is matched by the words that decode to its opcode, so the illegal words match none. -/
theorem tableRowSelectsItsCommand : Obligations.TableRowSelectsItsCommand := by
  refine ⟨matches_tableRow_iff_decode, fun w => ?_⟩
  rw [exists_decode_eq_error_iff]
  constructor
  · intro illegal i h
    obtain ⟨j, hj, _⟩ := (matches_tableRow_iff_decode w i).1 h
    exact illegal ⟨j, hj⟩
  · rintro noRow ⟨i, h⟩
    exact noRow i ((matches_tableRow_iff_decode w i).2 ⟨i, h, rfl⟩)

end Sys2Proof

namespace Sys2Proof.Machine

/-! ## What an illegal word does (R73, R74, R76) -/

/-- The Core's step on a word that does not decode. -/
theorem coreStep_of_error {w : Word} {why : DecodeError} (h : decode w = .error why) (s : State) :
    coreStep w s = .next (s.ended 6) := by
  rw [coreStep, h]
  rfl

/-- Settles O2: the illegal words are those whose fields fail a check; the bus accepts any word, and the Core's step on one
that does not decode is the lifecycle's end with code 6. -/
theorem illegalWordsCompleteWithCodeSix : Obligations.IllegalWordsCompleteWithCodeSix := by
  refine ⟨fun w => ?_, fun s w why h => ⟨fun idle => State.writesTo_cmd idle w, fun core pending => ?_⟩⟩
  · rw [exists_decode_eq_error_iff, exists_decode_eq_ok_iff, CmdFields.wellFormed_iff]
    simp only [fieldsOf]
    generalize w.extractLsb' 0 4 = op, w.extractLsb' 4 4 = rnd, w.extractLsb' 8 24 = rsvd
    have reserved : ¬ op.toNat ≤ 0xA ↔ 0xB ≤ op.toNat := Nat.not_le
    tauto
  · rw [step_of_coreHasTurn core pending, coreStep_of_error h]

end Sys2Proof.Machine
end

section
/-! PROOF. The cipher commands with a context: one round, one block, and the message commands past and at their checks
(42_feistel_round.md, 43_block_driver.md). -/

namespace Sys2Proof.Machine

/-! ## One round and one block (R145, R146, R162, R164) -/

/-- A command of the round engine past its context check. -/
theorem State.needContext_engineWrites {s : State} (context : s.ctxValid = true) (x : Block) :
    s.needContext (s.engineWrites x).finish = .next ((s.engineWrites x).complete .success) :=
  State.needContext_valid context _

theorem exec_encr_of_context {s : State} (context : s.ctxValid = true) (r : BitVec 4) :
    exec (.encr r) s = .next ((s.engineWrites (encRound s.block (s.sbox.box r))).complete .success) :=
  State.needContext_engineWrites context _

theorem exec_decr_of_context {s : State} (context : s.ctxValid = true) (r : BitVec 4) :
    exec (.decr r) s = .next ((s.engineWrites (decRound s.block (s.sbox.box r))).complete .success) :=
  State.needContext_engineWrites context _

theorem exec_encb_of_context {s : State} (context : s.ctxValid = true) :
    exec .encb s = .next ((s.engineWrites (encBlock s.block s.sbox)).complete .success) :=
  State.needContext_engineWrites context _

theorem exec_decb_of_context {s : State} (context : s.ctxValid = true) :
    exec .decb s = .next ((s.engineWrites (decBlock s.block s.sbox)).complete .success) :=
  State.needContext_engineWrites context _

/-- Settles O47: the engine's result is `encRound`, whose bytes are the lookups at the running sums. -/
theorem encrAppliesOneRound : Obligations.EncrAppliesOneRound := by
  rintro s r _ _ _ _ context rfl rfl rfl rfl
  exact ⟨_, exec_encr_of_context context r, rfl, rfl, rfl, rfl, rfl, rfl⟩

/-- Settles O48: the engine's result is `decRound`, whose bytes are the lookups at the running sums. -/
theorem decrAppliesOneRound : Obligations.DecrAppliesOneRound := by
  rintro s r _ _ _ _ context rfl rfl rfl rfl
  exact ⟨_, exec_decr_of_context context r, rfl, rfl, rfl, rfl, rfl, rfl⟩

/-- Settles O50: the engine writes BLOCK, RND and the counter of free values. -/
theorem blockCommandsTransformBlock : Obligations.BlockCommandsTransformBlock :=
  fun _ context => ⟨⟨_, exec_encb_of_context context, rfl, rfl⟩, _, exec_decb_of_context context, rfl, rfl⟩

/-! ## Sixteen rounds in turn (R160, R161) -/

/-- Round commands in turn fold their rounds over BLOCK, and leave nothing else but what the engine leaves unspecified. With
no command to run the state must be at a command's end already. -/
theorem execAll_rounds {command : BitVec 4 → Instr} {round : Block → SBox → Block}
    (runs : ∀ {s : State}, s.ctxValid = true → ∀ r,
      exec (command r) s = .next ((s.engineWrites (round s.block (s.sbox.box r))).complete .success))
    (rounds : List (BitVec 4)) {s : State} (context : s.ctxValid = true)
    (ended : rounds = [] → s.complete .success = s) :
    ∃ t, execAll (rounds.map command) s = some t ∧
      t = { s.complete .success with
        block := rounds.foldl (fun y i => round y (s.sbox.box i)) s.block, rnd := t.rnd, draws := t.draws } := by
  induction rounds generalizing s with
  | nil => exact ⟨s, rfl, by rw [ended rfl]; rfl⟩
  | cons r rounds ih =>
    obtain ⟨t, run, result⟩ := ih (s := (s.engineWrites (round s.block (s.sbox.box r))).complete .success) context
      fun _ => rfl
    exact ⟨t, execAll_cons_eq_some.2 ⟨_, runs context r, run⟩, result⟩

/-- Settles O51: the block commands fold the rounds that the sixteen round commands apply in turn. -/
theorem blockCommandEqualsItsRounds : Obligations.BlockCommandEqualsItsRounds := by
  intro s context
  obtain ⟨t, encrs, ht⟩ := execAll_rounds exec_encr_of_context roundIndices context nofun
  obtain ⟨u, decrs, hu⟩ := execAll_rounds exec_decr_of_context roundIndices.reverse context nofun
  exact ⟨⟨t, _, encrs, exec_encb_of_context context, ht⟩, u, _, decrs, exec_decb_of_context context, hu⟩

/-! ## ENC (R166) -/

/-- Below the padded length, the message as ENC pads it is what the padded buffer holds. -/
theorem State.paddedByte_eq_read_paddedBuf (s : State) {a : Nat} (h : a < s.msgLen.toNat + padValue s.msgLen.toNat) :
    s.paddedByte a = Memory.read s.paddedBuf a := by
  rw [State.paddedByte, s.read_paddedBuf]
  by_cases message : a < s.msgLen.toNat
  · rw [if_pos message, if_neg (by omega)]
  · rw [if_neg message, if_pos (by omega)]

/-- Settles O53: the sequencer over the padded buffer, block by block, and its frame. -/
theorem encEncryptsThePaddedMessage : Obligations.EncEncryptsThePaddedMessage := by
  intro s context fits written
  rcases execEnc_fits context fits with ⟨unwritten, _⟩ | ⟨m, _, blocks, result⟩
  · exact absurd written unwritten
  have multiple := add_padValue_mod_eight s.msgLen.toNat
  obtain ⟨inside, outside⟩ := cryptBlocks_spec blocks
  refine ⟨_, result, State.toNat_setLength_of_le (s := s.driverWrites m) fits, fun n hn => ?_, fun a ha => ?_, rfl⟩
  · obtain ⟨x, before, after⟩ := inside n (Nat.zero_le n) (by omega)
    exact ⟨x, blockAt_congr (fun a _ _ => s.paddedByte_eq_read_paddedBuf (by omega)) before, after⟩
  · calc Memory.read m a
      _ = Memory.read s.paddedBuf a := outside a (by omega)
      _ = Memory.read s.buf a := by rw [s.read_paddedBuf, if_neg (by omega)]

/-- Settles O54: the capacity check, then the sequencer on a message with a byte never written. -/
theorem encStops : Obligations.EncStops := by
  refine fun s context => ⟨exec_enc_of_not_fits context, fun fits unwritten => ?_⟩
  rcases execEnc_fits context fits with ⟨_, stops⟩ | ⟨_, written, _⟩
  · exact stops
  · exact absurd written unwritten

/-! ## DEC (R168) -/

theorem exec_dec_of_noContext {s : State} (h : s.ctxValid = false) : exec .dec s = .next (s.complete .noContext) :=
  State.needContext_invalid h _

/-- DEC with a context, of a message longer than BUF. -/
theorem exec_dec_of_tooLong {s : State} (context : s.ctxValid = true) (h : s.bufSize.toNat < s.msgLen.toNat) :
    exec .dec s = .next (s.complete .capacityExceeded) :=
  (State.needContext_valid context _).trans (if_pos h)

/-- DEC past its capacity check, of a length that is zero or no multiple of 8. -/
theorem exec_dec_of_badLength {s : State} (context : s.ctxValid = true) (fits : ¬ s.bufSize.toNat < s.msgLen.toNat)
    (h : s.msgLen.toNat = 0 ∨ s.msgLen.toNat % 8 ≠ 0) : exec .dec s = .next (s.complete .invalidCiphertextLength) :=
  (State.needContext_valid context _).trans ((if_neg fits).trans (if_pos h))

/-- Settles O57: the three checks, and past them `execDec_runs`. -/
theorem decStops : Obligations.DecStops := by
  intro s
  split
  · next context => exact exec_dec_of_noContext context
  next context =>
  have context : s.ctxValid = true := Bool.not_eq_false _ ▸ context
  split
  · next tooLong => exact exec_dec_of_tooLong context tooLong
  next fits =>
  split
  · next bad => exact exec_dec_of_badLength context fits bad
  next legal =>
  obtain ⟨nonzero, multiple⟩ := not_or.1 legal
  rcases execDec_runs context (Nat.not_lt.1 fits) nonzero (not_not.1 multiple) with
    ⟨unwritten, stops⟩ | ⟨m, v, written, _, _, ⟨_, result⟩ | ⟨_, result⟩⟩
  · exact ⟨fun _ => unwritten, fun _ => stops⟩
  all_goals exact ⟨fun stops => (nomatch result.symm.trans stops), fun unwritten => absurd written unwritten⟩

/-- Settles O56: the sequencer over BUF, block by block, and the two outcomes that the last byte of its result decides. -/
theorem decDecryptsAndUnpads : Obligations.DecDecryptsAndUnpads := by
  intro s context fits nonzero multiple written
  rcases execDec_runs context fits nonzero multiple with ⟨unwritten, _⟩ | ⟨m, v, _, blocks, last, result⟩
  · exact absurd written unwritten
  obtain ⟨inside, outside⟩ := cryptBlocks_spec blocks
  have inPlace : ∀ n, n < s.msgLen.toNat / 8 →
      ∃ x, blockAt (Memory.read s.buf) n x ∧ blockAt (Memory.read m) n (decBlock x s.sbox) :=
    fun n hn => inside n (Nat.zero_le n) (by omega)
  have beyond : ∀ a, s.msgLen.toNat ≤ a → Memory.read m a = Memory.read s.buf a := fun a ha => outside a (by omega)
  rcases result with ⟨refused, result⟩ | ⟨accepted, result⟩
  · exact ⟨_, v, result, inPlace, beyond, last, by rw [if_pos refused]; exact ⟨rfl, rfl⟩, rfl⟩
  · refine ⟨_, v, result, inPlace, beyond, last, ?_, rfl⟩
    rw [if_neg accepted]
    exact ⟨rfl, State.toNat_setLength_of_le (s := s.driverWrites m) ((Nat.sub_le ..).trans fits)⟩

/-! ## DEC on two ciphertexts that differ in one block (R170) -/

/-- The sequencer's result at a byte depends on no byte of another block. -/
theorem read_cryptBlocks_congr_block {f : Block → Block} {count n a : Nat} {m₁ m₂ m₁' m₂' : List Host.Cell}
    (h₁ : cryptBlocks f count n m₁ = some m₁') (h₂ : cryptBlocks f count n m₂ = some m₂')
    (agree : ∀ b, b / 8 = a / 8 → Memory.read m₁ b = Memory.read m₂ b) : Memory.read m₁' a = Memory.read m₂' a := by
  obtain ⟨inside₁, outside₁⟩ := cryptBlocks_spec h₁
  obtain ⟨inside₂, outside₂⟩ := cryptBlocks_spec h₂
  by_cases range : n ≤ a / 8 ∧ a / 8 < n + count
  · obtain ⟨x, before₁, after₁⟩ := inside₁ (a / 8) range.1 range.2
    obtain ⟨y, before₂, after₂⟩ := inside₂ (a / 8) range.1 range.2
    have same : x = y := blockAt_unique before₁ (blockAt_congr (fun b _ _ => agree b (by omega)) before₂)
    rw [byte_of_blockAt after₁, byte_of_blockAt after₂, same]
  · rw [outside₁ a (by omega), outside₂ a (by omega), agree a rfl]

/-- DEC past its checks, where it completes: the sequencer's result is BUF, and its last byte decides code and length. -/
theorem exec_dec_past_checks {s t : State} (h : exec .dec s = .next t) (context : s.ctxValid = true)
    (fits : ¬ s.bufSize.toNat < s.msgLen.toNat) (legal : ¬ (s.msgLen.toNat = 0 ∨ s.msgLen.toNat % 8 ≠ 0)) :
    cryptBlocks (fun x => decBlock x s.sbox) (s.msgLen.toNat / 8) 0 s.buf = some t.buf ∧
    ∃ v, Memory.read t.buf (s.msgLen.toNat - 1) = some v ∧
      (t.err, t.msgLen) = if v.toNat = 0 ∨ s.msgLen.toNat < v.toNat then (3, s.msgLen)
        else (0, BitVec.ofNat 32 (s.msgLen.toNat - v.toNat)) := by
  obtain ⟨nonzero, multiple⟩ := not_or.1 legal
  rcases execDec_runs context (Nat.not_lt.1 fits) nonzero (not_not.1 multiple) with
    ⟨_, stops⟩ | ⟨m, v, _, blocks, last, ⟨refused, result⟩ | ⟨accepted, result⟩⟩
  · cases stops.symm.trans h
  · obtain rfl := Host.Outcome.next.inj (result.symm.trans h)
    exact ⟨blocks, v, last, by rw [if_pos refused]; rfl⟩
  · obtain rfl := Host.Outcome.next.inj (result.symm.trans h)
    exact ⟨blocks, v, last, by rw [if_neg accepted]; rfl⟩

/-- Settles O59: the checks of DEC do not read BUF, and past them a block of the result depends on that block alone. -/
theorem blastRadiusIsOneBlock : Obligations.BlastRadiusIsOneBlock := by
  intro s t t' m k agree h h'
  have stopped {c : StatusCode} (ends : exec .dec s = .next (s.complete c))
      (ends' : exec .dec { s with buf := m } = .next (State.complete c { s with buf := m })) :
      (∀ a, a / 8 ≠ k → Memory.read t'.buf a = Memory.read t.buf a) ∧
      (k + 1 ≠ s.msgLen.toNat / 8 → t'.err = t.err ∧ t'.msgLen = t.msgLen) := by
    obtain rfl := Host.Outcome.next.inj (ends.symm.trans h)
    obtain rfl := Host.Outcome.next.inj (ends'.symm.trans h')
    exact ⟨agree, fun _ => ⟨rfl, rfl⟩⟩
  cases context : s.ctxValid with
  | false => exact stopped (exec_dec_of_noContext context) (exec_dec_of_noContext context)
  | true =>
    by_cases tooLong : s.bufSize.toNat < s.msgLen.toNat
    · exact stopped (exec_dec_of_tooLong context tooLong) (exec_dec_of_tooLong context tooLong)
    by_cases bad : s.msgLen.toNat = 0 ∨ s.msgLen.toNat % 8 ≠ 0
    · exact stopped (exec_dec_of_badLength context tooLong bad) (exec_dec_of_badLength context tooLong bad)
    obtain ⟨blocks, v, last, result⟩ := exec_dec_past_checks h context tooLong bad
    obtain ⟨blocks', v', last', result'⟩ := exec_dec_past_checks h' context tooLong bad
    have others : ∀ a, a / 8 ≠ k → Memory.read t'.buf a = Memory.read t.buf a := fun a ha =>
      read_cryptBlocks_congr_block blocks' blocks fun b hb => agree b (hb ▸ ha)
    refine ⟨others, fun notLast => ?_⟩
    have lastByte : (s.msgLen.toNat - 1) / 8 ≠ k := by omega
    have sameLast : v' = v := Option.some.inj (last'.symm.trans ((others _ lastByte).trans last))
    rw [sameLast] at result'
    exact Prod.mk.inj (result'.trans result.symm)

end Sys2Proof.Machine
end

section
/-! PROOF. UNPAD where it succeeds (41_padding.md R124), and the command CLRCTX (44_control.md R181). -/

namespace Sys2Proof.Machine

/-- Settles O44: a last byte in `1..L` passes both checks of `unpadLen`, and leaves no room for an empty message. -/
theorem unpadTakesOffTheLastByte : Obligations.UnpadTakesOffTheLastByte := by
  intro s v fits last positive upper
  have accepted : unpadLen s.msgLen.toNat v = some (s.msgLen.toNat - v.toNat) := if_neg (by omega)
  exact (exec_unpad_of_nonempty (by omega) (by omega)).trans (State.unpad_of_unpadLen last accepted)

/-- The state CLRCTX leaves before the lifecycle's end. -/
def State.clearContext (s : State) : State :=
  { s with sbox := Vector.replicate Config.rounds zeroBox, sboxWritten := true, key := zeroKey, ctxValid := false }

theorem exec_clrctx (s : State) : exec .clrctx s = .next (s.clearContext.complete .success) := rfl

theorem zeroBox_getElem (e : Fin 256) : zeroBox[e] = 0 := Vector.getElem_replicate e.isLt

/-- Settles O33: every box is the zero table and the key the zero key. -/
theorem clrctxDestroysTheContext : Obligations.ClrctxDestroysTheContext := by
  refine ⟨rfl, fun s => ⟨_, exec_clrctx s, fun b e => ?_, zeroKey_getElem, rfl⟩⟩
  have box : (s.clearContext.complete .success).sbox[b] = zeroBox := Vector.getElem_replicate b.isLt
  rw [box, zeroBox_getElem]

end Sys2Proof.Machine
end

section
/-! PROOF. What each command does when it completes and when it stops, said once, and from it the lifecycle, the codes and the
precision of errors (30_encoding.md R74; 60_exceptions.md R201, R203, R211). -/

namespace Sys2Proof.Machine

/-! ## All that a command can do -/

/-- The commands of the round engine alone (R145, R146, R162, R164). -/
def UsesEngine (i : Instr) : Prop := i = .encb ∨ i = .decb ∨ ∃ r, i = .encr r ∨ i = .decr r

/-- `Effect s i c u`: from `s`, command `i` ends with code `c`, and `u` is what it leaves before the lifecycle's end. One
constructor per way a command can complete. -/
inductive Effect (s : State) : Instr → StatusCode → State → Prop
  | nop : Effect s .nop .success s
  | mkctx (key : s.keyLen = 32) : Effect s .mkctx .success
      (State.leaveGenerator (State.clearKey { s with sbox := gen s.key, sboxWritten := true, ctxValid := true }))
  | mkctxKeyLength (key : s.keyLen ≠ 32) : Effect s .mkctx .invalidKeyLength s.clearKey
  | pad (fits : s.msgLen.toNat + padValue s.msgLen.toNat ≤ s.bufSize.toNat) : Effect s .pad .success
      (State.setLength (s.msgLen.toNat + padValue s.msgLen.toNat) { s with buf := s.paddedBuf })
  | padCapacity : Effect s .pad .capacityExceeded s
  | unpad (n : Nat) : Effect s .unpad .success (s.setLength n)
  | unpadCapacity : Effect s .unpad .capacityExceeded s
  | unpadPadding : Effect s .unpad .invalidPadding s
  | noContext {i : Instr} (cipher : UsesEngine i ∨ i = .enc ∨ i = .dec) : Effect s i .noContext s
  | engine {i : Instr} (engine : UsesEngine i) (x : Block) : Effect s i .success (s.engineWrites x)
  | enc {m : List Host.Cell} (fits : s.msgLen.toNat + padValue s.msgLen.toNat ≤ s.bufSize.toNat)
      (blocks : cryptBlocks (fun x => encBlock x s.sbox) ((s.msgLen.toNat + padValue s.msgLen.toNat) / 8) 0 s.paddedBuf =
        some m) :
      Effect s .enc .success (State.setLength (s.msgLen.toNat + padValue s.msgLen.toNat) (s.driverWrites m))
  | encCapacity : Effect s .enc .capacityExceeded s
  | dec {m : List Host.Cell} (n : Nat)
      (blocks : cryptBlocks (fun x => decBlock x s.sbox) (s.msgLen.toNat / 8) 0 s.buf = some m) :
      Effect s .dec .success (State.setLength n (s.driverWrites m))
  | decCapacity : Effect s .dec .capacityExceeded s
  | decLength : Effect s .dec .invalidCiphertextLength s
  | decPadding {m : List Host.Cell} (multiple : s.msgLen.toNat % 8 = 0)
      (blocks : cryptBlocks (fun x => decBlock x s.sbox) (s.msgLen.toNat / 8) 0 s.buf = some m) :
      Effect s .dec .invalidPadding (s.driverWrites m)
  | clrctx : Effect s .clrctx .success s.clearContext

/-- What a command's answer `r` is: an effect and the lifecycle's end, or the stop of UNPAD, ENC and DEC on a message with a
byte never written. -/
def Answers (i : Instr) (s : State) (r : Result) : Prop :=
  (∃ c u, Effect s i c u ∧ r = .next (u.complete c)) ∨
  (r = .fault .unwrittenRead ∧ (i = .unpad ∨ i = .enc ∨ i = .dec) ∧ ¬ s.messageWritten)

theorem Effect.answers {i : Instr} {s u : State} {c : StatusCode} {r : Result} (effect : Effect s i c u)
    (h : r = .next (u.complete c)) : Answers i s r := .inl ⟨c, u, effect, h⟩

/-- A command of the engine fails its context check, or the engine writes its block. -/
theorem answers_engine {i : Instr} {s : State} (engine : UsesEngine i) (x : Block) :
    Answers i s (s.needContext (s.engineWrites x).finish) := by
  cases context : s.ctxValid with
  | false => exact (Effect.noContext (.inl engine)).answers (State.needContext_invalid context _)
  | true => exact (Effect.engine engine x).answers (State.needContext_engineWrites context x)

theorem answers_unpad (s : State) : Answers .unpad s (exec .unpad s) := by
  by_cases tooLong : s.bufSize.toNat < s.msgLen.toNat
  · exact Effect.unpadCapacity.answers (exec_unpad_of_tooLong tooLong)
  by_cases empty : s.msgLen.toNat = 0
  · exact Effect.unpadPadding.answers (exec_unpad_of_empty tooLong empty)
  rw [exec_unpad_of_nonempty tooLong empty]
  rcases s.unpad_cases with ⟨byte, stops⟩ | ⟨v, _, ⟨_, result⟩ | ⟨_, result⟩⟩
  · refine .inr ⟨stops, .inl rfl, fun written => ?_⟩
    have last := written (s.msgLen.toNat - 1) (by omega)
    rw [byte] at last
    cases last
  · exact Effect.unpadPadding.answers result
  · exact (Effect.unpad _).answers result

theorem answers_enc (s : State) : Answers .enc s (exec .enc s) := by
  cases context : s.ctxValid with
  | false => exact (Effect.noContext (.inr (.inl rfl))).answers (exec_enc_of_noContext context)
  | true =>
    by_cases fits : s.msgLen.toNat + padValue s.msgLen.toNat ≤ s.bufSize.toNat
    · rcases execEnc_fits context fits with ⟨unwritten, stops⟩ | ⟨m, _, blocks, result⟩
      · exact .inr ⟨stops, .inr (.inl rfl), unwritten⟩
      · exact (Effect.enc fits blocks).answers result
    · exact Effect.encCapacity.answers (exec_enc_of_not_fits context (Nat.not_le.1 fits))

theorem answers_dec (s : State) : Answers .dec s (exec .dec s) := by
  cases context : s.ctxValid with
  | false => exact (Effect.noContext (.inr (.inr rfl))).answers (exec_dec_of_noContext context)
  | true =>
    by_cases tooLong : s.bufSize.toNat < s.msgLen.toNat
    · exact Effect.decCapacity.answers (exec_dec_of_tooLong context tooLong)
    by_cases bad : s.msgLen.toNat = 0 ∨ s.msgLen.toNat % 8 ≠ 0
    · exact Effect.decLength.answers (exec_dec_of_badLength context tooLong bad)
    obtain ⟨nonzero, multiple⟩ := not_or.1 bad
    have multiple := not_not.1 multiple
    rcases execDec_runs context (Nat.not_lt.1 tooLong) nonzero multiple with
      ⟨unwritten, stops⟩ | ⟨m, v, _, blocks, _, ⟨_, result⟩ | ⟨_, result⟩⟩
    · exact .inr ⟨stops, .inr (.inr rfl), unwritten⟩
    · exact (Effect.decPadding multiple blocks).answers result
    · exact (Effect.dec _ blocks).answers result

/-- Every command has an effect and completes, or stops as R211 says. -/
theorem answers_exec (i : Instr) (s : State) : Answers i s (exec i s) := by
  cases i with
  | nop => exact Effect.nop.answers (exec_nop s)
  | mkctx =>
    by_cases key : s.keyLen = 32
    · exact (Effect.mkctx key).answers (exec_mkctx_of_keyLen_eq key)
    · exact (Effect.mkctxKeyLength key).answers (exec_mkctx_of_keyLen_ne key)
  | pad =>
    by_cases fits : s.msgLen.toNat + padValue s.msgLen.toNat ≤ s.bufSize.toNat
    · exact (Effect.pad fits).answers (exec_pad_of_fits fits)
    · exact Effect.padCapacity.answers (exec_pad_of_not_fits (Nat.not_le.1 fits))
  | unpad => exact answers_unpad s
  | encr r => exact answers_engine (.inr (.inr ⟨r, .inl rfl⟩)) _
  | decr r => exact answers_engine (.inr (.inr ⟨r, .inr rfl⟩)) _
  | encb => exact answers_engine (.inl rfl) _
  | decb => exact answers_engine (.inr (.inl rfl)) _
  | enc => exact answers_enc s
  | dec => exact answers_dec s
  | clrctx => exact Effect.clrctx.answers (exec_clrctx s)

/-- A command that answers a next state had one of its effects, and then its lifecycle ended. -/
theorem effect_of_exec {i : Instr} {s t : State} (h : exec i s = .next t) : ∃ c u, Effect s i c u ∧ t = u.complete c := by
  rcases answers_exec i s with ⟨c, u, effect, result⟩ | ⟨stops, _⟩
  · exact ⟨c, u, effect, Host.Outcome.next.inj (h.symm.trans result)⟩
  · cases stops.symm.trans h

/-! ## The statements -/

/-- Settles O29: by `answers_exec` a command that does not complete is one of the three, on such a message. -/
theorem onlyUnpadEncDecCanFault : Obligations.OnlyUnpadEncDecCanFault := by
  intro i s
  rcases answers_exec i s with ⟨c, u, _, result⟩ | ⟨stops, reads, unwritten⟩
  · rw [result]
    exact ⟨nofun, nofun⟩
  · rw [stops]
    exact ⟨fun f hf => ⟨(Host.Outcome.fault.inj hf).symm, reads, unwritten⟩, nofun⟩

/-- Settles O7: the Core's step is `exec` of what the pending word decodes to. -/
theorem stepRunsTheDecodedCommand : Obligations.StepRunsTheDecodedCommand := by
  intro s w i core pending decoded
  rw [step_of_coreHasTurn core pending, coreStep, decoded]

/-- Settles O11: an illegal word completes, and a command does or stops as `exec_shape` says. -/
theorem pendingCommandCompletes : Obligations.PendingCommandCompletes := by
  intro s w core pending
  rw [step_of_coreHasTurn core pending]
  rcases coreStep_cases w s with ⟨i, decoded, runs⟩ | ⟨_, _, result⟩
  · rw [runs, decoded]
    rcases exec_shape i s with ⟨c, t, result⟩ | ⟨stops, reads⟩
    · exact .inl ⟨_, result, rfl, rfl, rfl⟩
    · refine .inr ⟨stops, ?_⟩
      rcases reads with rfl | ⟨rfl | rfl, context⟩
      · exact .inl rfl
      · exact .inr ⟨.inl rfl, context⟩
      · exact .inr ⟨.inr rfl, context⟩
  · exact .inl ⟨_, result, rfl, rfl, rfl⟩

/-- Settles O30: the codes of a command's effects. -/
theorem codesEachCommandCompletesWith : Obligations.CodesEachCommandCompletesWith := by
  intro i s t h
  obtain ⟨c, u, effect, rfl⟩ := effect_of_exec h
  cases effect with
  | noContext cipher => rcases cipher with (rfl | rfl | ⟨r, rfl | rfl⟩) | rfl | rfl <;> simp [StatusCode.code]
  | engine engine => rcases engine with rfl | rfl | ⟨r, rfl | rfl⟩ <;> simp [StatusCode.code]
  | _ => simp [StatusCode.code]

/-- Settles O31: of the effects with a code other than 0 all leave the state as it was, but for MKCTX's, which clears the
keys, and the sequencer's in DEC. -/
theorem failedCommandsArePrecise : Obligations.FailedCommandsArePrecise := by
  intro i s t h failed
  obtain ⟨c, u, effect, rfl⟩ := effect_of_exec h
  cases effect with
  | nop | mkctx | pad | unpad | engine | enc | dec | clrctx => exact absurd rfl failed
  | mkctxKeyLength => exact .inr (.inl ⟨rfl, rfl⟩)
  | decPadding multiple blocks =>
    obtain ⟨inside, outside⟩ := cryptBlocks_spec blocks
    exact .inr (.inr ⟨rfl, rfl, rfl, fun n hn => inside n (Nat.zero_le n) (by omega), fun a ha => outside a (by omega)⟩)
  | noContext cipher =>
    refine .inl ⟨?_, .inr (show (4 : BitVec 4) ≠ 3 by decide), rfl⟩
    rcases cipher with (rfl | rfl | ⟨r, rfl | rfl⟩) | rfl | rfl <;> exact nofun
  | padCapacity | unpadCapacity | unpadPadding | encCapacity => exact .inl ⟨nofun, .inl nofun, rfl⟩
  | decCapacity => exact .inl ⟨nofun, .inr (show (5 : BitVec 4) ≠ 3 by decide), rfl⟩
  | decLength => exact .inl ⟨nofun, .inr (show (2 : BitVec 4) ≠ 3 by decide), rfl⟩

end Sys2Proof.Machine
end

section
/-! PROOF. The invariant of the machine, and which steps touch the context (00_scope.md R8; 10_state.md R24, R25, R30, R31, R42
to R44). -/

namespace Sys2Proof.Machine

/-! ## BUF in canonical form and within the buffer (R31, R44) -/

/-- The list is in canonical form, and only bytes below `n` are written. -/
def Memory.Fits (n : Nat) (m : List Host.Cell) : Prop :=
  Memory.wf m = true ∧ ∀ a, (Memory.read m a).isSome = true → a < n

theorem Memory.fits_nil (n : Nat) : Memory.Fits n [] := ⟨rfl, nofun⟩

theorem Memory.Fits.writeBytes {n a : Nat} {m : List Host.Cell} {vs : List Byte} (h : Memory.Fits n m)
    (inside : a + vs.length ≤ n) : Memory.Fits n (Memory.writeBytes m a vs) := by
  refine ⟨Memory.wf_writeBytes a vs h.1, fun c written => ?_⟩
  rw [Memory.read_writeBytes] at written
  split at written
  · omega
  · exact h.2 c written

theorem Memory.Fits.of_cryptBlocks {n count k : Nat} {m m' : List Host.Cell} {f : Block → Block} (h : Memory.Fits n m)
    (blocks : cryptBlocks f count k m = some m') : Memory.Fits n m' :=
  ⟨wf_cryptBlocks blocks h.1, fun a written => h.2 a (isSome_of_cryptBlocks blocks a written)⟩

theorem Memory.Fits.paddedBuf {s : State} (h : Memory.Fits s.bufSize.toNat s.buf)
    (fits : s.msgLen.toNat + padValue s.msgLen.toNat ≤ s.bufSize.toNat) : Memory.Fits s.bufSize.toNat s.paddedBuf :=
  h.writeBytes (by rw [padding, List.length_replicate]; exact fits)

/-- `bufWithin` as a fact about reads. -/
theorem State.bufWithin_iff (s : State) :
    s.bufWithin ↔ ∀ a, (Memory.read s.buf a).isSome = true → a < s.bufSize.toNat := by
  simp only [Memory.read_isSome_iff]
  exact ⟨fun h a ⟨c, mem, eq⟩ => eq ▸ h c mem, fun h c mem => h c.1 ⟨c, mem, rfl⟩⟩

theorem State.inv_iff (s : State) :
    s.Inv ↔ Memory.Fits s.bufSize.toNat s.buf ∧ s.lifecycleOk ∧ s.contextOk ∧ Config.bufBytesLegal s.bufBytes = true := by
  constructor
  · rintro ⟨canonical, within, lifecycle, context, size⟩
    exact ⟨⟨canonical, s.bufWithin_iff.1 within⟩, lifecycle, context, size⟩
  · rintro ⟨⟨canonical, within⟩, lifecycle, context, size⟩
    exact ⟨canonical, s.bufWithin_iff.2 within, lifecycle, context, size⟩

/-! ## Commands -/

/-- A command writes BUF within the buffer only. -/
theorem Effect.fits {i : Instr} {s u : State} {c : StatusCode} (effect : Effect s i c u)
    (h : Memory.Fits s.bufSize.toNat s.buf) : Memory.Fits s.bufSize.toNat u.buf := by
  cases effect with
  | pad fits => exact h.paddedBuf fits
  | enc fits blocks => exact (h.paddedBuf fits).of_cryptBlocks blocks
  | dec _ blocks | decPadding _ blocks => exact h.of_cryptBlocks blocks
  | _ => exact h

/-- MKCTX leaves the generator's output, CLRCTX no valid context, and every other command the context as it was. -/
theorem Effect.contextOk {i : Instr} {s u : State} {c : StatusCode} (effect : Effect s i c u) (h : s.contextOk) :
    u.contextOk := by
  cases effect with
  | mkctx => exact fun _ => ⟨rfl, s.key, rfl⟩
  | clrctx => exact nofun
  | _ => exact h

theorem Effect.context_frame {i : Instr} {s u : State} {c : StatusCode} (effect : Effect s i c u) :
    (i = .mkctx ∨ i = .clrctx) ∨ (u.sbox = s.sbox ∧ u.ctxValid = s.ctxValid ∧ u.sboxWritten = s.sboxWritten) := by
  cases effect with
  | mkctx => exact .inl (.inl rfl)
  | clrctx => exact .inl (.inr rfl)
  | _ => exact .inr ⟨rfl, rfl, rfl⟩

theorem StatusCode.code_toNat_le (c : StatusCode) : c.code.toNat ≤ 6 := by
  cases c <;> decide

/-- The lifecycle's end meets its clause of the invariant whatever went before. -/
theorem State.complete_lifecycleOk (c : StatusCode) (s : State) : (s.complete c).lifecycleOk :=
  ⟨rfl, nofun, c.code_toNat_le⟩

theorem State.Inv.of_coreStep {s t : State} {w : Word} (h : s.Inv) (hs : coreStep w s = .next t) : t.Inv := by
  obtain ⟨fits, _, context, size⟩ := s.inv_iff.1 h
  have sameSize := coreStep_bufSize hs
  rcases coreStep_cases w s with ⟨i, _, runs⟩ | ⟨_, _, illegal⟩
  · obtain ⟨c, u, effect, rfl⟩ := effect_of_exec (runs.symm.trans hs)
    refine (State.inv_iff _).2 ⟨?_, u.complete_lifecycleOk c, effect.contextOk context, ?_⟩
    · rw [sameSize]
      exact effect.fits fits
    · rwa [State.bufBytes, sameSize]
  · obtain rfl := Host.Outcome.next.inj (illegal.symm.trans hs)
    exact (State.inv_iff _).2 ⟨fits, s.complete_lifecycleOk _, context, size⟩

/-! ## Host accesses -/

/-- The BUF window is where the address map puts it (R54). -/
theorem State.region_eq_buf {s : State} {addr : Word} {off : Nat} (h : s.region addr = .buf off) :
    addr.toNat = 0x10000 + off ∧ off < s.bufBytes := by
  unfold State.region regionOf at h
  simp only [ite_eq_iff, reduceCtorEq, and_false, false_or, or_false, Region.buf.injEq] at h
  omega

theorem isWordAddress_of_busRefuses {addr : Word} {strobes : BitVec 4} (h : busRefuses addr strobes = false) :
    addr.toNat % 4 = 0 := by
  simp only [busRefuses, Bool.or_eq_false_iff, bne_eq_false_iff_eq] at h
  exact h.1

/-- The invariant does not speak of KEY. -/
theorem State.Inv.withKey {s : State} (h : s.Inv) (k : Key) : { s with key := k }.Inv :=
  (State.inv_iff _).2 (s.inv_iff.1 h)

/-- A write that goes through stays within the buffer, whose length is a multiple of 4. -/
theorem State.Inv.writeRegion {s : State} {addr : Word} (h : s.Inv) (aligned : addr.toNat % 4 = 0) (w : Word) :
    (s.writeRegion (s.region addr) w).Inv := by
  obtain ⟨fits, lifecycle, context, size⟩ := s.inv_iff.1 h
  cases region : s.region addr with
  | cmd => exact (State.inv_iff _).2 ⟨fits, ⟨rfl, fun _ => ⟨rfl, rfl⟩, Nat.zero_le 6⟩, context, size⟩
  | buf off =>
    obtain ⟨address, inside⟩ := State.region_eq_buf region
    obtain ⟨multiple, _, _⟩ := (bufBytesLegal_iff s.bufBytes).1 size
    rw [State.bufBytes] at multiple inside
    have stored := fits.writeBytes (a := off) (vs := [byteOf w 0, byteOf w 1, byteOf w 2, byteOf w 3])
      (by rw [List.length_cons, List.length_cons, List.length_cons, List.length_singleton]; omega)
    exact (State.inv_iff _).2 ⟨stored, lifecycle, context, size⟩
  | key off => exact h.withKey _
  | _ => exact (State.inv_iff _).2 ⟨fits, lifecycle, context, size⟩

theorem State.Inv.resetPulse {s : State} (h : s.Inv) : s.resetPulse.Inv :=
  (State.inv_iff _).2 ⟨Memory.fits_nil _, ⟨rfl, nofun, Nat.zero_le 6⟩, nofun, h.size⟩

theorem State.Inv.of_hostAccess {s t : State} {a : HostAccess} (h : s.Inv) (hs : hostAccess a s = .next t) :
    t.Inv := by
  rcases hostAccess_next hs with ⟨_, _, _, _, _, _, rfl⟩ | ⟨_, _, _, _, _, _, rfl⟩ | ⟨_, w, _, _, goes, _, rfl⟩ | ⟨_, rfl⟩
  · exact (State.inv_iff _).2 (s.inv_iff.1 h)
  · exact h
  · exact h.writeRegion (isWordAddress_of_busRefuses goes) w
  · exact h.resetPulse

theorem State.Inv.withHost {s : State} (h : s.Inv) (rest : List HostReq) : (s.withHost rest).Inv :=
  (State.inv_iff _).2 (s.inv_iff.1 h)

/-! ## The statements -/

/-- Settles O23: in each of the three turns a step can be the invariant is kept. -/
theorem everyStepKeepsTheInvariant : Obligations.EveryStepKeepsTheInvariant := by
  intro s t h hs
  rcases step_turns s with ⟨w, _, _, turn⟩ | ⟨r, rest, _, _, turn⟩ | ⟨_, _, turn⟩
  · exact h.of_coreStep (turn.symm.trans hs)
  · exact (h.withHost rest).of_hostAccess (turn.symm.trans hs)
  · exact Host.Outcome.next.inj (turn.symm.trans hs) ▸ h

/-- Settles O24: nothing is written, nothing pending, no context, and 4096 is a legal size. -/
theorem resetMeetsTheInvariant : Obligations.ResetMeetsTheInvariant :=
  (State.inv_iff _).2 ⟨Memory.fits_nil _, ⟨rfl, nofun, Nat.zero_le 6⟩, nofun, by decide⟩

/-- Settles O25: the boxes of a valid context are the generator's, and each of those is a permutation. -/
theorem validContextIsSixteenPermutations : Obligations.ValidContextIsSixteenPermutations := by
  intro s inv valid b v
  obtain ⟨_, key, context⟩ := inv.context valid
  rw [context, gen_getElem]
  exact everyBoxIsAPermutation (workingKey key b.val) v

/-- A host access other than a reset leaves the context. -/
theorem hostAccess_context {a : HostAccess} {s t : State} (h : hostAccess a s = .next t) :
    a = .rst ∨ (t.sbox = s.sbox ∧ t.ctxValid = s.ctxValid ∧ t.sboxWritten = s.sboxWritten) := by
  rcases hostAccess_next h with ⟨_, _, _, _, _, _, rfl⟩ | ⟨_, _, _, _, _, _, rfl⟩ | ⟨_, w, _, _, _, _, rfl⟩ | ⟨rst, _⟩
  · exact .inr ⟨rfl, rfl, rfl⟩
  · exact .inr ⟨rfl, rfl, rfl⟩
  · obtain ⟨valid, _, sbox, written, _, _⟩ := s.writeRegion_frame (s.region _) w
    exact .inr ⟨sbox, valid, written⟩
  · exact .inl rst

/-- Settles O26: turn by turn, a step that is none of the three leaves the context. -/
theorem onlyMkctxClrctxAndResetTouchTheContext : Obligations.OnlyMkctxClrctxAndResetTouchTheContext := by
  intro s t hs changed
  have not_kept : ¬ (t.sbox = s.sbox ∧ t.ctxValid = s.ctxValid ∧ t.sboxWritten = s.sboxWritten) := by tauto
  rcases step_turns s with ⟨w, core, pending, turn⟩ | ⟨⟨a, c⟩, rest, host, _, turn⟩ | ⟨_, _, turn⟩ <;> rw [turn] at hs
  · rcases coreStep_cases w s with ⟨i, decoded, runs⟩ | ⟨_, _, illegal⟩
    · obtain ⟨_, u, effect, rfl⟩ := effect_of_exec (runs.symm.trans hs)
      rcases effect.context_frame with (rfl | rfl) | kept
      · exact .inl ⟨w, pending, core, .inl decoded⟩
      · exact .inl ⟨w, pending, core, .inr decoded⟩
      · exact absurd kept not_kept
    · obtain rfl := Host.Outcome.next.inj (illegal.symm.trans hs)
      exact absurd ⟨rfl, rfl, rfl⟩ not_kept
  · rcases hostAccess_context hs with rfl | kept
    · exact .inr ⟨c, rest, host⟩
    · exact absurd kept not_kept
  · obtain rfl := Host.Outcome.next.inj hs
    exact absurd ⟨rfl, rfl, rfl⟩ not_kept

end Sys2Proof.Machine
end

section
/-! PROOF. Noninterference: what no step returns, and which registers no step's other effects depend on (10_state.md R34 to R37,
R45; 20_memory.md R66). Both statements are one: a step and the masking of some registers commute, up to the mask. -/

namespace Sys2Proof.Machine

/-! ## Masking registers -/

/-- The state with WK masked, KEY too if `key`, and the other registers of R36 and R37 too if `engine`. -/
def State.mask (key engine : Bool) (s : State) : State :=
  { s with
    key := if key then zeroKey else s.key
    wk := zeroKey
    genI := if engine then 0 else s.genI
    genJ := if engine then 0 else s.genJ
    genI2 := if engine then 0 else s.genI2
    genTable := if engine then zeroBox else s.genTable
    rnd := if engine then 0 else s.rnd
    blkIdx := if engine then 0 else s.blkIdx }

theorem State.mask_false_true (s : State) : s.mask false true = s.eraseHidden := rfl

/-- States that are equal under the mask of KEY and WK are equal but for KEY and WK. -/
theorem State.eq_of_mask_true_false {t u : State} (h : t.mask true false = u.mask true false) :
    u = { t with key := u.key, wk := u.wk } :=
  calc
    u = { u.mask true false with key := u.key, wk := u.wk } := rfl
    _ = { t.mask true false with key := u.key, wk := u.wk } := by rw [h]

/-- The answer with its next state, if it has one, under `f`. -/
def Result.mapNext (f : State → State) (answer : Result) : Result :=
  match answer with
  | .next t => .next (f t)
  | .fault r => .fault r
  | .refused q => .refused q

theorem Result.agree_of_mapNext_eq {f : State → State} {x y : Result}
    (h : Result.mapNext f x = Result.mapNext f y) : Result.agree (fun t u => f t = f u) x y := by
  cases x <;> cases y
  case next.next => exact Host.Outcome.next.inj h
  case fault.fault => exact Host.Outcome.fault.inj h
  case refused.refused => exact Host.Outcome.refused.inj h
  all_goals cases h

theorem Result.agree_mono {rel rel' : State → State → Prop} (imp : ∀ t u, rel t u → rel' t u) {x y : Result}
    (h : Result.agree rel x y) : Result.agree rel' x y := by
  cases x <;> cases y
  case next.next => exact imp _ _ h
  all_goals exact h

section

/-! ## Updates that do not read what is masked -/

variable {key engine : Bool}

/-- The update's result under the mask does not depend on what is masked. -/
def Blind (key engine : Bool) (f : State → State) : Prop :=
  ∀ s : State, (f (s.mask key engine)).mask key engine = (f s).mask key engine

theorem Blind.comp {f g : State → State} (hf : Blind key engine f) (hg : Blind key engine g) :
    Blind key engine fun s => f (g s) := fun s => by
  rw [← hf (g (s.mask key engine)), hg s, hf (g s)]

theorem blind_id : Blind key engine fun s => s := fun _ => by
  cases key <;> cases engine <;> rfl

theorem blind_complete (c : StatusCode) : Blind key engine (State.complete c) := fun _ => by
  cases key <;> cases engine <;> rfl

theorem blind_setLength (n : Nat) : Blind key engine (State.setLength n) := fun _ => by
  cases key <;> cases engine <;> rfl

theorem blind_setBuf (m : List Host.Cell) : Blind key engine fun s => { s with buf := m } := fun _ => by
  cases key <;> cases engine <;> rfl

theorem blind_engineWrites (x : Block) : Blind key engine (State.engineWrites x) := fun _ => by
  cases key <;> cases engine <;> rfl

theorem blind_driverWrites (m : List Host.Cell) : Blind key engine (State.driverWrites m) := fun _ => by
  cases key <;> cases engine <;> rfl

theorem blind_clearKey : Blind key engine State.clearKey := fun _ => by
  cases key <;> cases engine <;> rfl

theorem blind_leaveGenerator : Blind key engine State.leaveGenerator := fun _ => by
  cases key <;> cases engine <;> rfl

theorem blind_setContext (x : Boxes) :
    Blind key engine fun s => { s with sbox := x, sboxWritten := true, ctxValid := true } := fun _ => by
  cases key <;> cases engine <;> rfl

theorem blind_clearContext : Blind key engine State.clearContext := fun _ => by
  cases key <;> cases engine <;> rfl

theorem blind_return (v : Word) :
    Blind key engine fun s => { s with returned := v :: s.returned, draws := s.draws + 1 } := fun _ => by
  cases key <;> cases engine <;> rfl

theorem blind_resetPulse : Blind key engine State.resetPulse := fun _ => rfl

theorem blind_updateKey (f : Key → Key) : Blind key engine fun s => { s with key := f s.key } := fun _ => by
  cases key <;> cases engine <;> rfl

theorem blind_writeRegion (r : Region) (w : Word) : Blind key engine (State.writeRegion r w) := by
  cases r with
  | key off => exact blind_updateKey fun k => k.storeWord (off / 4) w
  | _ => intro s; cases key <;> cases engine <;> rfl

/-! ## Answers, walked along the structure of the model -/

/-- Two answers are the same under the mask. -/
def Alike (key engine : Bool) (x y : Result) : Prop :=
  Result.mapNext (State.mask key engine) x = Result.mapNext (State.mask key engine) y

theorem Blind.alike {f : State → State} (h : Blind key engine f) (s : State) :
    Alike key engine (.next (f (s.mask key engine))) (.next (f s)) := congrArg Host.Outcome.next (h s)

theorem Alike.ite {c : Prop} [Decidable c] {x y x' y' : Result} (hx : Alike key engine x x') (hy : Alike key engine y y') :
    Alike key engine (if c then x else y) (if c then x' else y') := by
  split
  · exact hx
  · exact hy

theorem Alike.elim {α : Type} {o : Option α} {x x' : Result} {k k' : α → Result} (hx : Alike key engine x x')
    (hk : ∀ a, Alike key engine (k a) (k' a)) : Alike key engine (o.elim x k) (o.elim x' k') := by
  cases o with
  | none => exact hx
  | some a => exact hk a

/-- The context check does not read what is masked. -/
theorem Alike.needContext {s : State} {x x' : Result} (h : Alike key engine x x') :
    Alike key engine ((s.mask key engine).needContext x) (s.needContext x') :=
  Alike.ite h ((blind_complete .noContext).alike s)

/-- The end of UNPAD and DEC, its two checks written as folds over `Option`. -/
theorem State.unpad_eq_elim (s : State) :
    s.unpad = (Memory.read s.buf (s.msgLen.toNat - 1)).elim (.fault .unwrittenRead) fun v =>
      (unpadLen s.msgLen.toNat v).elim (s.raise .invalidPadding) fun n => (s.setLength n).finish := by
  rw [State.unpad, State.length_eq]
  cases Memory.read s.buf (s.msgLen.toNat - 1) with
  | none => rfl
  | some v => cases h : unpadLen s.msgLen.toNat v <;> simp only [h, Option.elim]

theorem exec_enc_eq_elim (s : State) :
    exec .enc s = s.needContext (if s.padFits then
      (cryptBlocks (fun x => encBlock x s.sbox) (paddedLength s.length / 8) 0 s.paddedBuf).elim (.fault .unwrittenRead)
        fun m => (State.setLength (paddedLength s.length) (s.driverWrites m)).finish
      else s.raise .capacityExceeded) := by
  rw [exec, execEnc]
  cases cryptBlocks (fun x => encBlock x s.sbox) (paddedLength s.length / 8) 0 s.paddedBuf <;> rfl

theorem exec_dec_eq_elim (s : State) :
    exec .dec s = s.needContext (if s.bufBytes < s.length then s.raise .capacityExceeded
      else if s.length = 0 ∨ s.length % 8 ≠ 0 then s.raise .invalidCiphertextLength
      else (cryptBlocks (fun x => decBlock x s.sbox) (s.length / 8) 0 s.buf).elim (.fault .unwrittenRead)
        fun m => (s.driverWrites m).unpad) := by
  rw [exec, execDec]
  cases cryptBlocks (fun x => decBlock x s.sbox) (s.length / 8) 0 s.buf <;> rfl

/-- The end of UNPAD and DEC, after an update that leaves BUF and MSG_LEN alike. -/
theorem alike_unpad {f : State → State} (h : Blind key engine f) (s : State)
    (buf : (f (s.mask key engine)).buf = (f s).buf) (length : (f (s.mask key engine)).msgLen = (f s).msgLen) :
    Alike key engine (f (s.mask key engine)).unpad (f s).unpad := by
  rw [State.unpad_eq_elim, State.unpad_eq_elim, buf, length]
  exact Alike.elim rfl fun v =>
    Alike.elim (((blind_complete _).comp h).alike s) fun n => ((blind_complete _).comp ((blind_setLength n).comp h)).alike s

theorem alike_exec_mkctx {s : State} (h : key = true → s.keyLen ≠ 32) :
    Alike key engine (exec .mkctx (s.mask key engine)) (exec .mkctx s) := by
  by_cases length : s.keyLen = 32
  · have visible : key = false := by simpa [length] using h
    subst visible
    rw [exec_mkctx_of_keyLen_eq length, exec_mkctx_of_keyLen_eq (s := s.mask false engine) length]
    exact ((blind_complete _).comp (blind_leaveGenerator.comp (blind_clearKey.comp (blind_setContext (gen s.key))))).alike s
  · rw [exec_mkctx_of_keyLen_ne length, exec_mkctx_of_keyLen_ne (s := s.mask key engine) length]
    exact ((blind_complete _).comp blind_clearKey).alike s

theorem alike_exec_unpad (s : State) : Alike key engine (exec .unpad (s.mask key engine)) (exec .unpad s) :=
  Alike.ite ((blind_complete _).alike s) (Alike.ite ((blind_complete _).alike s)
    (alike_unpad blind_id s rfl rfl))

theorem alike_exec_enc (s : State) : Alike key engine (exec .enc (s.mask key engine)) (exec .enc s) := by
  rw [exec_enc_eq_elim, exec_enc_eq_elim]
  exact Alike.needContext (Alike.ite
    (Alike.elim rfl fun m => ((blind_complete _).comp ((blind_setLength _).comp (blind_driverWrites m))).alike s)
    ((blind_complete _).alike s))

theorem alike_exec_dec (s : State) : Alike key engine (exec .dec (s.mask key engine)) (exec .dec s) := by
  rw [exec_dec_eq_elim, exec_dec_eq_elim]
  exact Alike.needContext (Alike.ite ((blind_complete _).alike s) (Alike.ite ((blind_complete _).alike s)
    (Alike.elim rfl fun m => alike_unpad (blind_driverWrites m) s rfl rfl)))

/-- No command reads what is masked, but for a successful MKCTX, which reads KEY. -/
theorem alike_exec {i : Instr} {s : State} (h : key = true → i = .mkctx → s.keyLen ≠ 32) :
    Alike key engine (exec i (s.mask key engine)) (exec i s) := by
  cases i with
  | nop => exact (blind_complete .success).alike s
  | mkctx => exact alike_exec_mkctx fun masked => h masked rfl
  | pad =>
    exact Alike.ite (((blind_complete .success).comp ((blind_setLength _).comp (blind_setBuf s.paddedBuf))).alike s)
      ((blind_complete _).alike s)
  | unpad => exact alike_exec_unpad s
  | encr r => exact Alike.needContext (((blind_complete .success).comp (blind_engineWrites _)).alike s)
  | decr r => exact Alike.needContext (((blind_complete .success).comp (blind_engineWrites _)).alike s)
  | encb => exact Alike.needContext (((blind_complete .success).comp (blind_engineWrites _)).alike s)
  | decb => exact Alike.needContext (((blind_complete .success).comp (blind_engineWrites _)).alike s)
  | enc => exact alike_exec_enc s
  | dec => exact alike_exec_dec s
  | clrctx => exact ((blind_complete .success).comp blind_clearContext).alike s

/-! ## Steps -/

theorem alike_coreStep {w : Word} {s : State} (h : key = true → decode w = .ok .mkctx → s.keyLen ≠ 32) :
    Alike key engine (coreStep w (s.mask key engine)) (coreStep w s) := by
  unfold coreStep
  cases decoded : decode w with
  | ok i => exact alike_exec fun masked mkctx => h masked (mkctx ▸ decoded)
  | error why => exact (blind_complete .illegalCommand).alike s

theorem State.readValue_mask (s : State) (r : Region) (d : Word) :
    (s.mask key engine).readValue r d = s.readValue r d := by
  cases r <;> rfl

theorem alike_hostAccess (a : HostAccess) (s : State) :
    Alike key engine (hostAccess a (s.mask key engine)) (hostAccess a s) := by
  cases a with
  | read addr strobes =>
    simp only [hostAccess, State.busRead, State.readValue_mask]
    exact Alike.ite rfl ((blind_return _).alike s)
  | write addr w strobes =>
    exact Alike.ite rfl (Alike.ite (blind_id.alike s)
      ((blind_writeRegion (s.region addr) w).alike s))
  | rst => exact blind_resetPulse.alike s

/-- The next step is a successful MKCTX. -/
def State.buildsContext (s : State) : Prop :=
  s.coreHasTurn ∧ s.keyLen = 32 ∧ ∃ w, s.pending = some w ∧ decode w = .ok .mkctx

/-- A step and the mask commute up to the mask, but for a successful MKCTX where KEY is masked. -/
theorem alike_step {s : State} (h : key = true → ¬ s.buildsContext) :
    Alike key engine (step (s.mask key engine)) (step s) := by
  rcases step_turns s with ⟨w, core, pending, turn⟩ | ⟨r, rest, host, first, turn⟩ | ⟨host, pending, turn⟩ <;> rw [turn]
  · rw [step_of_coreHasTurn (s := s.mask key engine) core pending]
    exact alike_coreStep fun masked decoded keyLen => h masked ⟨core, keyLen, w, pending, decoded⟩
  · rw [step_of_hostTurn (s := s.mask key engine) host first]
    exact alike_hostAccess r.access (s.withHost rest)
  · rw [step_of_idle (s := s.mask key engine) host pending]
    exact blind_id.alike s

end

/-! ## The statements -/

/-- Settles O28: under the mask of the hidden registers the two states take the same step. -/
theorem hiddenRegistersAreUnobservable : Obligations.HiddenRegistersAreUnobservable := by
  intro s u same
  have commute (s : State) : Alike false true (step s.eraseHidden) (step s) :=
    s.mask_false_true ▸ alike_step nofun
  exact Result.agree_of_mapNext_eq ((commute s).symm.trans (same ▸ commute u))

/-- Settles O27: under the mask of KEY and WK the two states take the same step unless it is a successful MKCTX, and that one
returns nothing to the host. -/
theorem keyIsNeverReturned : Obligations.KeyIsNeverReturned := by
  intro s k wk
  have equal (h : ¬ s.buildsContext) :
      Result.agree (fun t u => u = { t with key := u.key, wk := u.wk }) (step s) (step { s with key := k, wk := wk }) := by
    have commute : Alike true false (step (s.mask true false)) (step s) := alike_step fun _ => h
    have commute' : Alike true false (step (s.mask true false)) (step { s with key := k, wk := wk }) :=
      alike_step (s := { s with key := k, wk := wk }) fun _ => h
    exact Result.agree_mono (fun _ _ => State.eq_of_mask_true_false) (Result.agree_of_mapNext_eq (commute.symm.trans commute'))
  refine ⟨?_, equal⟩
  by_cases mkctx : s.buildsContext
  · obtain ⟨core, keyLen, w, pending, decoded⟩ := mkctx
    obtain ⟨t, ran, _⟩ := exec_mkctx_clears s
    obtain ⟨u, ran', _⟩ := exec_mkctx_clears { s with key := k, wk := wk }
    obtain ⟨_, returned, _⟩ := exec_host_fields ran
    obtain ⟨_, returned', _⟩ := exec_host_fields ran'
    rw [stepRunsTheDecodedCommand s w .mkctx core pending decoded,
      stepRunsTheDecodedCommand { s with key := k, wk := wk } w .mkctx core pending decoded,
      ran, ran']
    exact returned.trans returned'.symm
  · have returned : ∀ t u : State, u = { t with key := u.key, wk := u.wk } → t.returned = u.returned :=
      fun _ _ h => (congrArg State.returned h).symm
    exact Result.agree_mono returned (equal mkctx)

end Sys2Proof.Machine
end

section
/-! PROOF. The data registers and the KEY window as the host sees them, bus errors, and the reset input (10_state.md R28 to R34,
R45; 20_memory.md R51 to R53, R58; 70_reset_and_hazards.md R230, R231, R242). -/

namespace Sys2Proof.Machine

/-! ## The data registers -/

theorem State.region_keyLen (s : State) : s.region 0x008 = .keyLen := rfl

theorem State.region_msgLen (s : State) : s.region 0x00C = .msgLen := rfl

theorem State.region_blockL (s : State) : s.region 0x010 = .blockL := rfl

theorem State.region_blockR (s : State) : s.region 0x014 = .blockR := rfl

/-- A read of a word address whose region, while no command is in progress, has the value `v`. -/
theorem State.readsAs_of_idle {s : State} {addr v : Word} {r : Region} (idle : s.busy = false) (region : s.region addr = r)
    (aligned : addr.toNat % 4 = 0) (value : ∀ d, (if s.busy then d else v) = s.readValue r d) : s.readsAs addr v :=
  State.readsAs_eq aligned (by rw [region, ← value, if_neg (Bool.not_eq_true _ ▸ idle)])

/-- Settles O15: CMD reads 0 at any time, the four registers their values while idle. -/
theorem registersReadBack : Obligations.RegistersReadBack := fun s idle =>
  ⟨s.readsAs_cmd, State.readsAs_of_idle idle s.region_keyLen rfl fun _ => rfl,
    State.readsAs_of_idle idle s.region_msgLen rfl fun _ => rfl,
    State.readsAs_of_idle idle s.region_blockL rfl fun _ => rfl,
    State.readsAs_of_idle idle s.region_blockR rfl fun _ => rfl⟩

/-- Settles O16: while idle a write does to its region what the address map says. -/
theorem registerWritesStore : Obligations.RegisterWritesStore := fun _ _ idle =>
  ⟨State.writesTo_of_idle rfl idle, State.writesTo_of_idle rfl idle, State.writesTo_of_idle rfl idle,
    State.writesTo_of_idle rfl idle⟩

/-- Settles O13: a read that the bus performs changes nothing, whatever region it selects. -/
theorem readsHaveNoSideEffect : Obligations.ReadsHaveNoSideEffect :=
  fun _ _ aligned => ⟨_, State.readsAs_of_region aligned⟩

/-- Settles O9: the drop comes before the address map. -/
theorem writesWhileBusyAreDropped : Obligations.WritesWhileBusyAreDropped :=
  fun _ _ _ busy aligned => State.writesTo_of_busy aligned busy

/-! ## The KEY window (R34) -/

theorem Key.storeWord_getElem (k : Key) (q : Nat) (w : Word) (i : Fin 32) :
    (k.storeWord q w)[i] = if i.val / 4 = q then byteOf w (i.val % 4) else k[i] := by
  simp [Key.storeWord]

theorem State.writesTo_key {s : State} (idle : s.busy = false) {q : Nat} (h : q < 8) (w : Word) :
    s.writesTo (BitVec.ofNat 32 (0x020 + 4 * q)) w { s with key := s.key.storeWord q w } := by
  have stored := State.writesTo_of_idle (w := w) (ofNat_isWordAddress (n := 0x020 + 4 * q) (by omega)) idle
  rwa [s.region_key (by omega), State.writeRegion, Nat.mul_div_cancel_left q (by decide)] at stored

/-- Settles O19: the window reads 0 at any time, and word `q` of it stores key bytes `4q` to `4q + 3`. -/
theorem keyWindowIsWriteOnly : Obligations.KeyWindowIsWriteOnly := fun s q w h =>
  ⟨s.readsAs_key (by omega) (by omega), fun idle =>
    ⟨s.key.storeWord q w, State.writesTo_key idle h w, s.key.storeWord_getElem q w⟩⟩

/-! ## Bus errors (R51, R53) -/

theorem busRefuses_iff (addr : Word) (strobes : BitVec 4) :
    busRefuses addr strobes = true ↔ addr.toNat % 4 ≠ 0 ∨ strobes ≠ 0xF := by
  simp [busRefuses]

theorem busRead_fault_iff (addr : Word) (strobes : BitVec 4) (s : State) :
    s.busRead addr strobes = .fault .busError ↔ addr.toNat % 4 ≠ 0 ∨ strobes ≠ 0xF := by
  rw [← busRefuses_iff, State.busRead]
  split <;> simp [*]

theorem busWrite_fault_iff (addr w : Word) (strobes : BitVec 4) (s : State) :
    s.busWrite addr w strobes = .fault .busError ↔ addr.toNat % 4 ≠ 0 ∨ strobes ≠ 0xF := by
  rw [← busRefuses_iff, State.busWrite]
  split
  · simp [*]
  · split <;> simp [*]

/-- The Core stops only on a byte never written. -/
theorem coreStep_ne_busError (w : Word) (s : State) : coreStep w s ≠ .fault .busError := by
  rcases coreStep_cases w s with ⟨i, _, runs⟩ | ⟨_, _, result⟩
  · rcases exec_shape i s with ⟨c, t, result⟩ | ⟨stops, _⟩
    · rw [runs, result]
      exact nofun
    · rw [runs, stops]
      exact nofun
  · rw [result]
    exact nofun

/-- Settles O10: in the host's turn by the two bus rules, and no other turn answers the fault. -/
theorem busErrorExactlyOnBadAccess : Obligations.BusErrorExactlyOnBadAccess := by
  refine ⟨fun s addr w strobes rest c first => ⟨?_, ?_⟩, fun s fault => ?_⟩
  · rw [step_withHost s rest first]
    exact busRead_fault_iff addr strobes _
  · rw [step_withHost s rest first]
    exact busWrite_fault_iff addr w strobes _
  · rcases step_turns s with ⟨w, _, _, turn⟩ | ⟨r, rest, host, first, turn⟩ | ⟨_, _, turn⟩ <;> rw [turn] at fault
    · exact absurd fault (coreStep_ne_busError w s)
    · exact ⟨r, rest, host, (hostAccess_fault fault).2, first⟩
    · cases fault

/-! ## The reset input (R230, R231) -/

/-- Settles O6: the host's turn on `rst` is `State.resetPulse`, whose fields are those of `State.reset`. -/
theorem resetPulseAbandonsTheCommand : Obligations.ResetPulseAbandonsTheCommand := fun s rest _ host first =>
  ⟨(s.withHost rest).resetPulse, step_of_hostTurn host first, rfl, rfl, rfl, rfl, rfl, rfl, rfl, rfl, zeroKey_getElem, rfl,
    Memory.read_nil, rfl, rfl, rfl⟩

end Sys2Proof.Machine
end

section
/-! PROOF. A command's pseudo-instruction: WR CMD and POLL, run to the STATUS the command leaves (30_encoding.md R77, R78;
70_reset_and_hazards.md R241). -/

namespace Sys2Proof.Machine

/-- One step of a run, of any machine. -/
theorem run_succ (M : Host.Core) {s t : M.State} (h : M.step s = .next t) (k : Nat) : M.run (k + 1) s = M.run k t := by
  rw [Host.Core.run, h]

theorem run_succ_of_step {s t : State} (h : step s = .next t) (k : Nat) :
    Host.Core.run core (k + 1) s = Host.Core.run core k t := run_succ core h k

/-- Reads of STATUS in the host's turn return one word as many times as they are made. -/
theorem run_statusReads (m k : Nat) (s : State) (rest : List HostReq) :
    Host.Core.run core (m + k) (s.withHost (List.replicate m (hostRead addrStatus false) ++ rest)) =
      Host.Core.run core k { s with
        host := rest, returned := List.replicate m s.statusWord ++ s.returned, draws := s.draws + m } := by
  induction m generalizing s with
  | zero => rw [Nat.zero_add]; rfl
  | succ m ih =>
    rw [Nat.succ_add_eq_add_succ, ← Nat.add_assoc]
    have read := s.readsAs_status (List.replicate m (hostRead addrStatus false) ++ rest) false (.inl rfl)
    rw [List.replicate_succ, List.cons_append]
    refine (run_succ_of_step read (m + k)).trans ?_
    refine (ih { s with returned := s.statusWord :: s.returned, draws := s.draws + 1 }).trans ?_
    rw [List.replicate_succ', List.append_assoc, Nat.add_assoc, Nat.add_comm 1 m]
    rfl

/-- STATUS of a command in progress (R243). -/
theorem State.statusWord_accept {s : State} {v w : Word} (h : v.toNat = 1 + 4 * s.ctxValid.toNat) :
    (s.accept w).statusWord = v := by
  apply BitVec.eq_of_toNat_eq
  rw [State.statusWord_toNat, h]
  rfl

/-- The poll's last read, after a command has completed. -/
theorem step_poll_of_exec {i : Instr} {s t : State} {rest : List HostReq} (h : exec i s = .next t)
    (host : s.host = hostPoll 0 ++ rest) :
    step t = .next { t with host := rest, returned := t.statusWord :: t.returned, draws := t.draws + 1 } := by
  obtain ⟨c, u, _, rfl⟩ := effect_of_exec h
  obtain ⟨sameHost, _⟩ := exec_host_fields h
  have list : hostRead addrStatus true :: rest = (u.complete c).host := (sameHost.trans host).symm
  calc step (u.complete c)
    _ = step ((u.complete c).withHost (hostRead addrStatus true :: rest)) := by rw [list]; rfl
    _ = _ := (u.complete c).readsAs_status rest true (.inr rfl)

/-- Settles O12: the accepted write, the reads while the command is in progress, the Core's step, and the last read. -/
theorem commandLineRunsToItsStatus : Obligations.CommandLineRunsToItsStatus := by
  intro s t i m c v rest idle pending status ran
  have accepted := State.writesTo_cmd idle (encode i)
    (List.replicate m (hostRead addrStatus false) ++ ([hostRead addrStatus true] ++ rest)) c (.inr pending)
  rw [← State.statusWord_accept (w := encode i) status] at ran
  have completes := (stepRunsTheDecodedCommand _ (encode i) i (.inr ⟨_, rest, rfl, rfl⟩) rfl (decode_encode i)).trans ran
  calc Host.Core.run core (m + 3) (s.withHost ((HostLine.command i m c).expand ++ rest))
    _ = Host.Core.run core (m + 2) ((s.accept (encode i)).withHost
          (List.replicate m (hostRead addrStatus false) ++ ([hostRead addrStatus true] ++ rest))) := by
        rw [← List.append_assoc] at accepted ⊢
        exact run_succ_of_step accepted (m + 2)
    _ = Host.Core.run core 2 _ := run_statusReads m 2 (s.accept (encode i)) ([hostRead addrStatus true] ++ rest)
    _ = Host.Core.run core 1 t := run_succ_of_step completes 1
    _ = Host.Core.run core 0 _ := run_succ_of_step (step_poll_of_exec ran rfl) 0

end Sys2Proof.Machine
end

section
/-! PROOF. One iteration of the shuffle, and the corner cases of the generator (40_sbox_generator.md R104, R110). -/

namespace Sys2Proof.Machine

/-- Settles O35: the new index and the swap, for an iteration whose result is given as a pair. -/
theorem shuffleIteration : Obligations.ShuffleIteration := by
  intro wk j i2 t k j' t' hk h
  have index := shuffleStep_index (wk := wk) (jt := (j, t)) hk
  have swaps := shuffleStep_swaps wk (j, t) i2
  rw [h] at index swaps
  exact ⟨index, swaps⟩

theorem workingKey_getElem_last (key : Key) (n : Nat) : (workingKey key n)[31] = key[31] := by
  induction n with
  | zero => rfl
  | succ n ih => exact (keyStep_getElem_last _ _).trans ih

/-! ## Box 0 of the all-zero key -/

/-- Adding a byte of the zero key leaves the running index. -/
theorem nextIndex_zeroKey (t : SBox) (j i2 : Byte) : nextIndex zeroKey t j i2 = j := by
  rw [nextIndex, zeroKey, Vector.getElem_replicate]
  exact BitVec.add_zero j

theorem startIndex_zeroKey : startIndex zeroKey = 0 := by
  rw [startIndex, zeroKey, Vector.toList_replicate, List.map_replicate, List.sum_replicate]
  rfl

/-- With the zero key the index stays 0, so iteration `n` swaps the entries `n` and 0: after `n` iterations the entries below
`n` are rotated by one, and the others where they were. -/
theorem shuffleRun_zeroKey {n : Nat} (h : n ≤ 256) :
    (shuffleRun zeroKey n).1.toNat = 0 ∧ ∀ (e : Nat) (he : e < 256), ((shuffleRun zeroKey n).2[e]'he).toNat =
      if e = 0 then n - 1 else if e < n then e - 1 else e := by
  induction n with
  | zero =>
    refine ⟨congrArg BitVec.toNat startIndex_zeroKey, fun e he => (identityBox_getElem_toNat ⟨e, he⟩).trans ?_⟩
    split
    · assumption
    · rfl
  | succ n ih =>
    obtain ⟨index, entries⟩ := ih (by omega)
    have entry : (BitVec.ofNat 8 n).toNat = n := Nat.mod_eq_of_lt h
    have index' : (shuffleRun zeroKey (n + 1)).1.toNat = 0 := by
      rw [shuffleRun_succ, ← index]
      exact congrArg BitVec.toNat (nextIndex_zeroKey ..)
    obtain ⟨left, right, others⟩ := shuffleStep_swaps zeroKey (shuffleRun zeroKey n) (BitVec.ofNat 8 n)
    simp only [← shuffleRun_succ, entry, index'] at left right others
    refine ⟨index', fun e he => ?_⟩
    by_cases zero : e = 0
    · subst zero
      rw [right, entries n h, if_neg (Nat.lt_irrefl n), if_pos rfl]
      split <;> omega
    by_cases swapped : e = n
    · subst swapped
      rw [left, entries 0 (by decide), if_pos rfl, if_neg zero, if_pos (Nat.lt_succ_self e)]
    · rw [show (shuffleRun zeroKey (n + 1)).2[e] = (shuffleRun zeroKey n).2[e] from others ⟨e, he⟩ swapped zero,
        entries e he]
      split_ifs <;> omega

/-- Settles O37: the last byte through every `keyStep`, and the whole run of the shuffle on the zero key. -/
theorem generatorCornerCases : Obligations.GeneratorCornerCases := by
  refine ⟨workingKey_getElem_last, fun e => BitVec.eq_of_toNat_eq ?_⟩
  obtain ⟨_, entries⟩ := shuffleRun_zeroKey (Nat.le_refl 256)
  have box : (gen (Vector.replicate 32 0))[0] = (shuffleRun zeroKey 256).2 := gen_getElem zeroKey 0
  rw [box, BitVec.toNat_ofNat]
  refine (entries e.val e.isLt).trans ?_
  split
  · omega
  · rw [if_pos e.isLt]
    omega

end Sys2Proof.Machine
end
